-- ==== Sys2Proof/Config.lean ====
section
/-! DEFINITION. The implementation parameters of rule R7 (spec/00_scope.md). The hardware has one configuration
and no rule draws a free value (rule R137), so there is nothing else here. -/

namespace Sys2Proof.Config

/-- `N`: the field size exponent (rule R7). -/
def fieldBits : Nat := 116

/-- `C`: the small odd constant, 2^N ≡ C (mod P) (rule R7). -/
def fieldConst : Nat := 3

/-- `P` = 2^N - C: the prime modulus (rule R7). -/
def prime : Nat := 2 ^ fieldBits - fieldConst

/-- `LIMB_W`: bits per limb (rule R7). -/
def limbBits : Nat := 58

/-- `KEY_BYTES`: key length (rule R7). -/
def keyBytes : Nat := 32

/-- `TAG_BYTES`: tag length (rule R7). -/
def tagBytes : Nat := 16

/-- `R_BITS`: the evaluation key is below 2^R_BITS (rules R7, R121). -/
def clampBits : Nat := 112

/-- `BLOCK_BYTES`: bytes per message block (rule R7). -/
def blockBytes : Nat := 14

/-- `K`: the batch width (rules R7, R8; decision D2 fixes 4). -/
def batchWidth : Nat := 4

/-- `UNIT_BYTES` = K x BLOCK_BYTES: one processing unit, the buffer's capacity (rule R7). -/
def unitBytes : Nat := batchWidth * blockBytes

/-- `LEN_W`: width of the command length field (rules R7, R71). -/
def lenBits : Nat := 24

end Sys2Proof.Config
end

