-- ==== Sys2Proof/Word.lean ====
section
/-! DEFINITION. The word types of the Poly1163 MAC engine: bytes, limbs, lanes and limb pairs. -/

namespace Sys2Proof

/-- A byte (rule R10). -/
abbrev Byte := BitVec 8

/-- A narrow limb: exactly 58 bits (rules R11, R20). -/
abbrev Limb := BitVec 58

/-- A wide lane: 128 bits, arithmetic modulo 2^128 (rules R37, R107). -/
abbrev Lane := BitVec 128

/-- A command or response header: 32 bits (rules R71, R76). -/
abbrev Header := BitVec 32

/-- A narrow limb pair `(l0, l1)`, the form of every field-element register (rules R11, R20). The
58-bit width makes the pair normalized by its type (rule R24). -/
structure Narrow where
  l0 : Limb
  l1 : Limb
deriving DecidableEq, Repr

/-- A wide limb pair `(d0, d1)` as it travels inside one field-unit operation (rule R37). -/
structure Wide where
  d0 : Lane
  d1 : Lane
deriving DecidableEq, Repr

/-- The pair (0, 0), the reset value of every field-element register (rule R41). -/
def Narrow.zero : Narrow := ⟨0, 0⟩

/-- The lane pair (0, 0). -/
def Wide.zero : Wide := ⟨0, 0⟩

end Sys2Proof
end

