-- ==== Sys2Proof/Syntax.lean ====
section
/-! DEFINITION. The instructions: one constructor per row of spec/opcode_table.json, and the two encoded forms
in which an instruction is presented (rule R70). -/

namespace Sys2Proof

/-- The eight operations. A command carries its payload, and its `LEN` is the payload's length (rule R71: a
command is `(OPCODE, LEN, payload)` with exactly `LEN` payload bytes); a `LEN` that is not legal for the opcode
is a command like any other, answered by an error (rules R87, R183). A field-unit operation carries the operand
pairs of its rule: wide pairs for FADD and FCARRY, narrow pairs for FMUL and FREDUCE, which take only narrow
operands by type (rules R101 to R104, U20 of 93_implementation_defined.md). -/
inductive Instr where
  /-- INIT, opcode 0x01: load a key and start a message (rule R131). -/
  | init (payload : List Byte)
  /-- UPDATE, opcode 0x02: absorb message bytes (rule R134). -/
  | update (payload : List Byte)
  /-- FINAL, opcode 0x03: produce the tag (rule R162). -/
  | final (payload : List Byte)
  /-- VERIFY, opcode 0x04: finalize and compare (rule R164). -/
  | verify (payload : List Byte)
  /-- FADD, `FU_OP` 001 (rule R101). -/
  | fadd (a b : Wide)
  /-- FCARRY, `FU_OP` 010 (rule R102). -/
  | fcarry (a : Wide)
  /-- FMUL, `FU_OP` 011 (rule R103). -/
  | fmul (a b : Narrow)
  /-- FREDUCE, `FU_OP` 100 (rule R104). -/
  | freduce (a : Narrow)
deriving DecidableEq, Repr

/-- A field-unit operation as the sequencer presents it: the 3-bit `FU_OP` of rule R79 and the operands at the unit's
inputs, two wide pairs for FADD and FCARRY and two narrow pairs for FMUL and FREDUCE, which "take only narrow operands
by type" (U20). That the two kinds have inputs of their own is a DESIGN CHOICE, log entry 4: the spec gives the code
three bits and the operands their widths, and no layout that carries both. -/
structure FuIssue where
  code : BitVec 3
  /-- First wide operand: FADD, FCARRY. -/
  a : Wide
  /-- Second wide operand: FADD. -/
  b : Wide
  /-- First narrow operand: FMUL, FREDUCE. -/
  x : Narrow
  /-- Second narrow operand: FMUL. -/
  y : Narrow
deriving DecidableEq, Repr

/-- An encoded instruction in one of the two formats that carry one (rule R70): `CMD`, a command header and its
payload (rule R71), or `FU`, a function-select code with its operand lanes (rule R79). -/
inductive Encoding where
  | command (ch : Header) (payload : List Byte)
  | fieldUnit (issue : FuIssue)
deriving DecidableEq, Repr

end Sys2Proof
end

