-- ==== Sys2Proof/Machine/State.lean ====
section
/-! DEFINITION. The state of the engine as plain data, its reset value, and the reasons a step can stop
(spec/10_state.md, spec/30_encoding.md rule R76). -/

namespace Sys2Proof.Machine

/-- The three phases of rule R34. The fourth code of the 2-bit register is reserved and never written (U16 of
93_implementation_defined.md: "a model's phase type has three values"). -/
inductive Phase where
  /-- 0: no key has been loaded since reset. -/
  | idle
  /-- 1: can accept UPDATE, FINAL and VERIFY. -/
  | accumulating
  /-- 2: terminal for the message. -/
  | finalized
deriving DecidableEq, Repr

/-- The status codes a response can carry (rule R77). -/
inductive Status where
  /-- 0x00: the command executed. -/
  | ok
  /-- 0x01: the command is not permitted in the current phase (rule R182). -/
  | usagePhase
  /-- 0x02: `LEN` is not legal for the opcode (rule R183). -/
  | usageLength
  /-- 0x03: the opcode is unassigned (rule R184). -/
  | illegalOpcode
deriving DecidableEq, Repr

/-- A host event (rule R14): Reset, or a command as its header and payload (rule R71). A partial command is no event
(U12); one whose payload is not the header's `LEN` bytes is refused when it is reached (log entry 9). -/
inductive HostEvent where
  | reset
  | command (ch : Header) (payload : List Byte)
deriving DecidableEq, Repr

/-- A response: the 32-bit header `RH` and the payload bytes (rule R76). -/
structure Response where
  header : Header
  payload : List Byte
deriving DecidableEq, Repr

/-- The architectural state of rules R20 to R35, and the model's own fields: the two streams of rule R14 and the
field unit's ports (log entries 1, 2 and 3). -/
structure State where
  /-- `ACC`, the accumulator (rule R21). -/
  acc : Narrow
  /-- `R`, the clamped evaluation key (rule R22). -/
  r : Narrow
  /-- `POW[1]`, which equals `R` (rule R23). -/
  pow1 : Narrow
  /-- `POW[2]` (rule R23). -/
  pow2 : Narrow
  /-- `POW[3]` (rule R23). -/
  pow3 : Narrow
  /-- `POW[4]` (rule R23). -/
  pow4 : Narrow
  /-- `S`, the masking key (rule R25). -/
  mask : BitVec 128
  /-- `BUF`, the block buffer, as (address, byte) cells in rising order; an address not listed holds no value
  (rules R26, R50; log entry 7). -/
  buf : List Host.Cell
  /-- `BUFLEN`, the number of bytes in `BUF` (rule R27). -/
  buflen : BitVec 6
  /-- `PHASE` (rule R34). -/
  phase : Phase
  /-- `ERR`, the sticky error flag (rule R35). -/
  err : Bool
  /-- The model's own: host events presented and not yet taken, the next one first (rule R14, log entry 1). -/
  inbox : List HostEvent
  /-- The model's own: the responses given so far, oldest first (rules R14, R76, log entry 2). -/
  responses : List Response
  /-- The model's own: a field-unit operation presented on its own (rule R79, log entry 3). -/
  fuIssue : Option FuIssue
  /-- The model's own: the result lanes of the last field-unit operation run on its own (rule R37, log entry 3). -/
  fuOut : Wide
deriving DecidableEq, Repr

/-- The machine right after Reset: every register at the value of rule R41. The model's own fields are empty
(DESIGN CHOICE, log entries 1, 2 and 3). -/
def State.reset : State where
  acc := Narrow.zero
  r := Narrow.zero
  pow1 := Narrow.zero
  pow2 := Narrow.zero
  pow3 := Narrow.zero
  pow4 := Narrow.zero
  mask := 0
  buf := []
  buflen := 0
  phase := .idle
  err := false
  inbox := []
  responses := []
  fuIssue := none
  fuOut := Wide.zero

/-- The machine stops. The spec's own errors are no faults: they are responses (rule R186). -/
inductive Fault where
  /-- A buffer read at an address of 56 or above, which does not exist (rule R50), where a `BUFLEN` above 56 would permit
  it. Raised by `memBytes`, so by `memRead` and `padBlock`; safe: `BUFLEN` never exceeds 56 in a run (rules R27,
  R42(e); log entry 8). -/
  | bufferAddress
deriving DecidableEq, Repr

/-- The model gives no meaning. -/
inductive Refusal where
  /-- An instruction with no meaning yet; raised by `exec`'s arm only. No arm of this model does. Safe. -/
  | notModelled (mnemonic : String)
  /-- A read of no bytes, of more than 14, or of a byte that holds no data, at or above `BUFLEN` (rule R53, U21). Raised
  by `memBytes`, so by `memRead` and `padBlock`; safe (log entry 8). -/
  | memRead
  /-- A buffer write not at `BUFLEN`, or with a `BUFLEN` of 56 or more (rule R54, U21). Raised by `memWrite`; safe (log
  entry 8). -/
  | memWrite
  /-- PADBLOCK with a length of 0 or above 14 (rule R132, U21). Raised by `padBlock`; safe (log entry
  8). -/
  | blockLength
  /-- A host event that is not a whole command: its payload is not the `LEN` bytes of its header (rule R71, U12).
  Raised by `fetch`; safe (log entry 9). -/
  | partialCommand
  /-- A field-unit issue with a reserved code, 000, 101, 110 or 111 (rule R81, U18). Raised by `fetch`; safe (log entry 5). -/
  | fieldUnitIssue
deriving DecidableEq, Repr

end Sys2Proof.Machine
end

