-- ==== Sys2Proof/Machine/Flags.lean ====
section
/-! DEFINITION. Flags and status: the encodings of `STATUS`, `PHASE` and `ERR`, the response header that reports
them, the two checks of a command that come after its opcode, and the transient condition bits of FREDUCE and CTEQ
(spec/30_encoding.md rules R74, R76, R77, R87; spec/10_state.md rules R34 to R36). -/

namespace Sys2Proof.Machine

/-- `STATUS` codes (rule R77). -/
def statusCode : Status → BitVec 8
  | .ok => 0x00
  | .usagePhase => 0x01
  | .usageLength => 0x02
  | .illegalOpcode => 0x03

/-- The 2-bit `PHASE` values (rule R34). -/
def phaseCode : Phase → BitVec 2
  | .idle => 0
  | .accumulating => 1
  | .finalized => 2

/-- The response header `RH` (rule R76): bits 31:24 zero, 23:16 `RLEN`, 15:11 zero, 10 `ERR`, 9:8 `PHASE`,
7:0 `STATUS`. -/
def responseHeader (status : Status) (phase : Phase) (err : Bool) (rlen : BitVec 8) : Header :=
  (0 : BitVec 8) ++ rlen ++ (0 : BitVec 5) ++ BitVec.ofBool err ++ phaseCode phase ++ statusCode status

/-- The legal `LEN` of INIT, FINAL and VERIFY (rule R74); UPDATE accepts every `LEN`. -/
def lenInit : Nat := Config.keyBytes
def lenFinal : Nat := 0
def lenVerify : Nat := Config.tagBytes

/-- `PHASE` permits UPDATE, FINAL and VERIFY: only in `Accumulating` (rule R182). INIT is permitted in every phase. -/
def phasePermits (phase : Phase) : Bool := phase == .accumulating

/-- The checks of rule R87 that come after the opcode, in its order: `LEN`, then `PHASE`; the first that fails, or
none. `lenOk` and `phaseOk` say whether the command's `LEN` is legal and its phase permitted. -/
def firstFailure (lenOk phaseOk : Bool) : Option Status :=
  if !lenOk then some .usageLength else if !phaseOk then some .usagePhase else none

/-- The selection mask of FREDUCE: `(0 - g) mod 2^58`, all zeros when the carry bit `g` is 0, all ones when it is 1
(rules R36, R104). -/
def selectMask (g : Limb) : Limb := 0#58 - g

/-- The branch-free choice of FREDUCE: `(a & ~mask) | (t & mask)` (rule R104). -/
def maskSelect (m a t : Limb) : Limb := (a &&& ~~~m) ||| (t &&& m)

/-- The byte `diff` of CTEQ from a start value: the OR of the bytewise XORs (rule R163). -/
def cteqDiff (diff : Byte) : List Byte → List Byte → Byte
  | t :: ts, e :: es => cteqDiff (diff ||| (t ^^^ e)) ts es
  | _, _ => diff

/-- CTEQ(t, e): 1 when the strings are equal, 0 when they differ, as a byte, by the branch-free zero test
`((diff - 1) >> 8) & 1` on 9 bits (rule R163, G4; log entry 17). -/
def cteq (t e : List Byte) : Byte :=
  ((((cteqDiff 0 t e).setWidth 9 - 1#9) >>> 8) &&& 1#9).setWidth 8

end Sys2Proof.Machine
end

