-- ==== Sys2Proof/Machine/Operands.lean ====
section
/-! DEFINITION. Operand forms and conversions: bytes and integers, integers and limb pairs, narrow and wide pairs,
padded blocks (spec/00_scope.md rules R9 to R11, spec/20_memory.md rules R52, R57, R64). -/

namespace Sys2Proof

/-- `LE(b_0, .., b_(n-1))`: the little-endian integer of a byte string, byte 0 least significant (rule R10). -/
def ofLE : List Byte → Nat
  | [] => 0
  | b :: bs => b.toNat + 256 * ofLE bs

/-- `bytesLE_n(v)`: the `n` little-endian bytes of `v`; byte `i` is `v[8i+7:8i]` (rule R10). -/
def toLE : Nat → Nat → List Byte
  | 0, _ => []
  | n + 1, v => BitVec.ofNat 8 v :: toLE n (v / 256)

/-- `val(l0, l1) = l0 + 2^58 * l1` of a narrow pair (rule R11). -/
def Narrow.val (a : Narrow) : Nat := a.l0.toNat + 2 ^ 58 * a.l1.toNat

/-- `val(d0, d1) = d0 + 2^58 * d1` of a wide pair (rule R11). -/
def Wide.val (a : Wide) : Nat := a.d0.toNat + 2 ^ 58 * a.d1.toNat

/-- `split(v) = (v & M58, v >> 58)` (rule R11). -/
def split (v : Nat) : Narrow := ⟨BitVec.ofNat 58 v, BitVec.ofNat 58 (v / 2 ^ 58)⟩

/-- A narrow pair on the wide lanes: each limb zero-extended (rules R9, R37). -/
def Narrow.widen (a : Narrow) : Wide := ⟨a.l0.setWidth 128, a.l1.setWidth 128⟩

/-- A lane pair delivered narrow: bits 57:0 of each lane (rule R102, "delivered narrow"). Every use in the model
is on lanes below 2^58, where it loses nothing (rules R105, R106). -/
def Wide.narrow (a : Wide) : Narrow := ⟨a.d0.setWidth 58, a.d1.setWidth 58⟩

/-- Both lanes are 58-bit values: the pair is normalized (rule R11). -/
def Wide.isNarrow (a : Wide) : Bool := decide (a.d0.toNat < 2 ^ 58) && decide (a.d1.toNat < 2 ^ 58)

/-- A narrow pair is canonical when its value is below `P` (rule R11). -/
def Narrow.isCanonical (a : Narrow) : Bool := decide (a.val < Config.prime)

/-- The padded value of a block of bytes: its little-endian integer with a 1 bit immediately above its most
significant message bit, `m = v | 2^(8 n)` (rule R132). -/
def paddedValue (block : List Byte) : Nat := ofLE block ||| 2 ^ (8 * block.length)

end Sys2Proof
end

