-- ==== Sys2Proof/Machine/Ops.lean ====
section
/-! DEFINITION. The named operations over the state: sequencing of operations that can stop, register writes, the
block buffer (spec/20_memory.md), responses, the error entry (spec/60_exceptions.md rule R186) and the Reset event
(spec/70_reset_and_hazards.md rule R210). -/

namespace Sys2Proof.Machine

/-- What an operation of the machine answers: a value, a fault or a refusal. -/
abbrev Res (α : Type) := Host.Outcome α Fault Refusal

/-- Do `x`, then `f` on its value; a stop of `x` is a stop of both. -/
def andThen {α β : Type} (x : Res α) (f : α → Res β) : Res β :=
  match x with
  | .next a => f a
  | .fault e => .fault e
  | .refused e => .refused e

/-! ### Register writes (the write map of rule R43) -/

def State.setAcc (s : State) (v : Narrow) : State := { s with acc := v }

/-- `R`, `POW[1..4]` and `S`, which only KEYDERIVE writes (rules R22, R23, R25). -/
def State.setKey (s : State) (r pow1 pow2 pow3 pow4 : Narrow) (mask : BitVec 128) : State :=
  { s with r := r, pow1 := pow1, pow2 := pow2, pow3 := pow3, pow4 := pow4, mask := mask }

def State.setBuf (s : State) (buf : List Host.Cell) (buflen : BitVec 6) : State :=
  { s with buf := buf, buflen := buflen }

def State.setPhase (s : State) (v : Phase) : State := { s with phase := v }

def State.setErr (s : State) (v : Bool) : State := { s with err := v }

def State.setInbox (s : State) (v : List HostEvent) : State := { s with inbox := v }

def State.pushResponse (s : State) (v : Response) : State := { s with responses := s.responses ++ [v] }

def State.setFuIssue (s : State) (v : Option FuIssue) : State := { s with fuIssue := v }

def State.setFuOut (s : State) (v : Wide) : State := { s with fuOut := v }

/-! ### The block buffer (rules R50 to R56) -/

/-- The byte at an address, or none where nothing has been written (rule R26; log entry 7). -/
def lookup : List Host.Cell → Nat → Option Byte
  | [], _ => none
  | (k, b) :: m, a => if k = a then some b else lookup m a

/-- The cells with the byte at `a` made `b`, addresses kept rising. -/
def store : List Host.Cell → Nat → Byte → List Host.Cell
  | [], a, b => [(a, b)]
  | (k, v) :: m, a, b =>
    if k = a then (a, b) :: m
    else if a < k then (a, b) :: (k, v) :: m
    else (k, v) :: store m a b

/-- Addresses strictly rising from `lo` up, all in the address space 0 to 55 of rule R50. -/
def risingFrom : Nat → List Host.Cell → Bool
  | _, [] => true
  | lo, (k, _) :: m => decide (lo ≤ k) && decide (k < Config.unitBytes) && risingFrom (k + 1) m

/-- The canonical form of the buffer's cells. An address that is not listed holds no value, so no listed cell can
equal what an unlisted address reads as. -/
def Memory.wf (m : List Host.Cell) : Bool := risingFrom 0 m

/-- The bytes at `n` addresses from `a` up, or none if one of them holds no value. -/
def readBytes (m : List Host.Cell) (a : Nat) : Nat → Option (List Byte)
  | 0 => some []
  | n + 1 =>
    match lookup m a, readBytes m (a + 1) n with
    | some b, some bs => some (b :: bs)
    | _, _ => none

/-- The bytes of a block read, `BUF[a] .. BUF[a+n-1]`, where `MemRead(a, n)` is defined: 1 to 14 bytes below `BUFLEN`
(rule R53); any other read is refused (U21). Where a `BUFLEN` above 56, which no run reaches, would let a read go past
address 55, the address does not exist and the read faults (rule R50). The length is looked at first, then `BUFLEN`,
then the address (DESIGN CHOICE, log entry 8). -/
def memBytes (s : State) (a n : Nat) : Res (List Byte) :=
  if n = 0 || Config.blockBytes < n then .refused .memRead
  else if s.buflen.toNat < a + n then .refused .memRead
  else if Config.unitBytes < a + n then .fault .bufferAddress
  else
    match readBytes s.buf a n with
    | some bs => .next bs
    | none => .refused .memRead

/-- `MemRead(a, n)`: the little-endian integer of `n` buffer bytes from `a`, without side effect (rule R53). -/
def memRead (s : State) (a n : Nat) : Res Nat := andThen (memBytes s a n) fun bs => .next (ofLE bs)

/-- `MemWrite(a, 1, b)`: append a byte; it requires `a = BUFLEN` and `BUFLEN <= 55` (rule R54), and any other write is
refused (U21). -/
def memWrite (s : State) (a : Nat) (b : Byte) : Res State :=
  if a = s.buflen.toNat && s.buflen.toNat < Config.unitBytes then .next (s.setBuf (store s.buf a b) (s.buflen + 1))
  else .refused .memWrite

/-- `BUF <- empty`: `BUFLEN <- 0`, and no byte of the buffer is state any more (rules R26, R54). -/
def State.bufEmpty (s : State) : State := s.setBuf [] 0

/-! ### Responses, errors, Reset -/

/-- `respond(status, payload)`: `PHASE` and `ERR` are reported as they stand in `s`, after the command's writes
(rule R76). -/
def respond (status : Status) (payload : List Byte) (s : State) : State :=
  s.pushResponse ⟨responseHeader status s.phase s.err (BitVec.ofNat 8 payload.length), payload⟩

/-- TAKING AN ERROR, `raise <Error>(code)`: the command's payload is discarded (it was consumed with its event),
`ERR <- 1`, nothing else changes, and the response carries the code with no payload (rule R186). There is no
handler and no return (rule R189): the engine takes the next command. -/
def raiseError (status : Status) (s : State) : State := respond status [] (s.setErr true)

/-- Perform a command's body if the checks of rule R87 pass; else take the error of the first that fails. -/
def checked (lenOk phaseOk : Bool) (s : State) (body : Res State) : Res State :=
  match firstFailure lenOk phaseOk with
  | some status => .next (raiseError status s)
  | none => body

/-- The Reset event: every register at its reset value, no response (rule R210). The host's later events and the
responses already given are the host's and stay (log entry 11). -/
def applyReset (s : State) (later : List HostEvent) : State :=
  { State.reset with inbox := later, responses := s.responses }

end Sys2Proof.Machine
end

