-- ==== Sys2Proof/Machine/FieldUnit.lean ====
section
/-! DEFINITION. The field unit: FADD, FCARRY, FMUL, FREDUCE (spec/40_field_arithmetic.md), as pure functions
("No state; no I/O", rule R108) and as the meanings of the four instructions, each of which puts its result on the
unit's result lanes and changes nothing else (log entry 3). -/

namespace Sys2Proof.Machine

/-- `M58 = 2^58 - 1` on a lane (rule R7). -/
def lane58 : Lane := 0x3FFFFFFFFFFFFFF#128

/-- FADD: lane by lane, modulo 2^128, no carry between the limbs (rule R101). -/
def fieldAdd (a b : Wide) : Wide := ⟨a.d0 + b.d0, a.d1 + b.d1⟩

/-- Steps S1, S3 and S5 of FCARRY: the bits of lane 0 above 58 are carried into lane 1 (rule R102). -/
def carryLow (d : Wide) : Wide := ⟨d.d0 &&& lane58, d.d1 + (d.d0 >>> 58)⟩

/-- Steps S2 and S4 of FCARRY: the bits of lane 1 above 58, of weight 2^116 ≡ 3, are carried into lane 0 three
times (rule R102). -/
def carryHigh (d : Wide) : Wide := ⟨d.d0 + 3#128 * (d.d1 >>> 58), d.d1 &&& lane58⟩

/-- FCARRY: the five steps S1 to S5, always all performed (rule R102). -/
def fieldCarry (d : Wide) : Wide := carryLow (carryHigh (carryLow (carryHigh (carryLow d))))

/-- The 116-bit product of two limbs on a lane (rules R103, R107). -/
def limbProduct (x y : Limb) : Lane := x.setWidth 128 * y.setWidth 128

/-- The two sums of FMUL before carrying: weight 2^0 `a0 b0 + 3 a1 b1`, weight 2^58 `a0 b1 + a1 b0` (rule R103). -/
def crossSums (a b : Narrow) : Wide :=
  ⟨limbProduct a.l0 b.l0 + 3#128 * limbProduct a.l1 b.l1, limbProduct a.l0 b.l1 + limbProduct a.l1 b.l0⟩

/-- FMUL: four cross products, the fold of 2^116 by 3, FCARRY (rule R103). -/
def fieldMul (a b : Narrow) : Narrow := (fieldCarry (crossSums a b)).narrow

/-- FCARRY of the sum of two narrow pairs, delivered narrow: the operand a fold multiplies (rules R133, R151). -/
def carriedSum (a b : Narrow) : Narrow := (fieldCarry (fieldAdd a.widen b.widen)).narrow

/-- FREDUCE: `t = a + 3` limb by limb on 59 bits, the carry bit `g` out of the top, and the choice between `a` and
`t` by mask (rule R104). -/
def fieldReduce (a : Narrow) : Narrow :=
  let t0 : BitVec 59 := a.l0.setWidth 59 + 3#59
  let t1 : BitVec 59 := a.l1.setWidth 59 + (t0 >>> 58)
  let m := selectMask ((t1 >>> 58).setWidth 58)
  ⟨maskSelect m a.l0 (t0.setWidth 58), maskSelect m a.l1 (t1.setWidth 58)⟩

/-! ### The four instructions -/

/-- FADD (rule R101). -/
def execFadd (a b : Wide) (s : State) : Res State := .next (s.setFuOut (fieldAdd a b))

/-- FCARRY (rule R102); outside its precondition the lanes wrap modulo 2^128 (rule R107, U20). -/
def execFcarry (a : Wide) (s : State) : Res State := .next (s.setFuOut (fieldCarry a))

/-- FMUL (rule R103). -/
def execFmul (a b : Narrow) (s : State) : Res State := .next (s.setFuOut (fieldMul a b).widen)

/-- FREDUCE (rule R104). -/
def execFreduce (a : Narrow) (s : State) : Res State := .next (s.setFuOut (fieldReduce a).widen)

end Sys2Proof.Machine
end

