-- ==== Sys2Proof/Machine/Batch.lean ====
section
/-! DEFINITION. Routines over the block buffer: PADBLOCK and BLOCKFOLD (spec/42_streaming_engine.md rules R132,
R133), and BATCHFOLD (spec/43_batch_evaluator.md). -/

namespace Sys2Proof.Machine

/-- PADBLOCK(a, n): the padded value of the `n`-byte block at address `a`, 1 <= n <= 14 (rule R132). Any
other length is refused as such before the read is looked at (U21; that this comes first is a DESIGN CHOICE, log
entry 8). -/
def padBlock (s : State) (a n : Nat) : Res Narrow :=
  if n = 0 || Config.blockBytes < n then .refused .blockLength
  else andThen (memBytes s a n) fun bs => .next (split (paddedValue bs))

/-- BLOCKFOLD(a, n): `ACC <- FMUL(FCARRY(FADD(ACC, M)), R)` (rule R133). -/
def blockFold (s : State) (a n : Nat) : Res State :=
  andThen (padBlock s a n) fun m => .next (s.setAcc (fieldMul (carriedSum s.acc m) s.r))

/-- The accumulator BATCHFOLD leaves, from the four padded blocks: four independent products, then the sum left to
right and one FCARRY (rules R151, R152). -/
def batchValue (s : State) (m1 m2 m3 m4 : Narrow) : Narrow :=
  let p1 := fieldMul (carriedSum s.acc m1) s.pow4
  let p2 := fieldMul m2 s.pow3
  let p3 := fieldMul m3 s.pow2
  let p4 := fieldMul m4 s.pow1
  (fieldCarry (fieldAdd (fieldAdd (fieldAdd p1.widen p2.widen) p3.widen) p4.widen)).narrow

/-- BATCHFOLD: fold one full unit of four blocks with the powers `POW[4], POW[3], POW[2], POW[1]` (rule R151;
conflict C1 settles the assignment). -/
def batchFold (s : State) : Res State :=
  andThen (padBlock s 0 14) fun m1 =>
  andThen (padBlock s 14 14) fun m2 =>
  andThen (padBlock s 28 14) fun m3 =>
  andThen (padBlock s 42 14) fun m4 =>
  .next (s.setAcc (batchValue s m1 m2 m3 m4))

end Sys2Proof.Machine
end

