-- ==== Sys2Proof/Machine/Finalize.lean ====
section
/-! DEFINITION. Finalization and verification: routines TAIL and TAGGEN, commands FINAL and VERIFY
(spec/44_finalize_verify.md). CTEQ stands in Machine/Flags.lean. -/

namespace Sys2Proof.Machine

/-- The loop of TAIL: `count` whole blocks from block `j` on, in order (rule R160). -/
def foldWhole (s : State) (j : Nat) : Nat → Res State
  | 0 => .next s
  | count + 1 => andThen (blockFold s (14 * j) 14) fun s1 => foldWhole s1 (j + 1) count

/-- TAIL: the `floor(BUFLEN / 14)` whole blocks, then the `BUFLEN mod 14` bytes after them if any, then
`BUF <- empty`; a remainder of no bytes is not folded (rule R160, conflict C5). -/
def tail (s : State) : Res State :=
  let n := s.buflen.toNat
  andThen (foldWhole s 0 (n / 14)) fun s1 =>
  andThen (if n % 14 = 0 then .next s1 else blockFold s1 (14 * (n / 14)) (n % 14)) fun s2 =>
  .next s2.bufEmpty

/-- The tag value `T = (f + S) mod 2^128`, where `f` is the value of FREDUCE(ACC) (rule R161). -/
def tagValue (s : State) : BitVec 128 := BitVec.ofNat 128 (fieldReduce s.acc).val + s.mask

/-- The tag bytes: `T` in 16 little-endian bytes (rule R161). -/
def tagBytesOf (s : State) : List Byte := toLE 16 (tagValue s).toNat

/-- The body of FINAL: TAGGEN, `PHASE <- 2`, respond OK with the tag (rule R162). `ACC` keeps the last fold's result
and the key registers keep theirs (rule R168). -/
def finalBody (s : State) : Res State :=
  andThen (tail s) fun t => .next (respond .ok (tagBytesOf t) (t.setPhase .finalized))

/-- The body of VERIFY: TAGGEN, CTEQ, `PHASE <- 2`, respond OK with the one result byte; the tag itself is not put
out (rule R164). -/
def verifyBody (expected : List Byte) (s : State) : Res State :=
  andThen (tail s) fun t => .next (respond .ok [cteq (tagBytesOf t) expected] (t.setPhase .finalized))

/-- FINAL (rule R162): USAGE_LENGTH unless `LEN = 0`, then USAGE_PHASE unless `PHASE = 1`. -/
def execFinal (payload : List Byte) (s : State) : Res State :=
  checked (payload.length == lenFinal) (phasePermits s.phase) s (finalBody s)

/-- VERIFY (rule R164): USAGE_LENGTH unless `LEN = 16`, then USAGE_PHASE unless `PHASE = 1`. -/
def execVerify (payload : List Byte) (s : State) : Res State :=
  checked (payload.length == lenVerify) (phasePermits s.phase) s (verifyBody payload s)

end Sys2Proof.Machine
end

