-- ==== Sys2Proof/Machine/KeySchedule.lean ====
section
/-! DEFINITION. The key schedule: routine KEYDERIVE (spec/41_key_schedule.md). -/

namespace Sys2Proof.Machine

/-- `r`: key bytes 0 to 15 as a little-endian integer, bits 111:0 kept (rules R120, R121). -/
def evalKey (key : List Byte) : Nat := ofLE (key.take 16) % 2 ^ Config.clampBits

/-- `s`: key bytes 16 to 31 as a little-endian integer, used as they are (rule R122). -/
def maskKey (key : List Byte) : Nat := ofLE ((key.drop 16).take 16)

/-- KEYDERIVE: writes `R`, `S` and `POW[1..4]`, the powers by repeated FMUL (rules R120, R123). -/
def keyDerive (key : List Byte) (s : State) : State :=
  let r := split (evalKey key)
  let pow2 := fieldMul r r
  let pow3 := fieldMul pow2 r
  let pow4 := fieldMul pow3 r
  s.setKey r r pow2 pow3 pow4 (BitVec.ofNat 128 (maskKey key))

end Sys2Proof.Machine
end

