-- ==== Sys2Proof/Machine/Streaming.lean ====
section
/-! DEFINITION. The streaming commands INIT and UPDATE (spec/42_streaming_engine.md). -/

namespace Sys2Proof.Machine

/-- The body of INIT: KEYDERIVE, `ACC <- (0, 0)`, `BUF <- empty`, `PHASE <- 1`, respond OK (rule R131). -/
def initBody (key : List Byte) (s : State) : State :=
  respond .ok [] ((((keyDerive key s).setAcc Narrow.zero).bufEmpty).setPhase .accumulating)

/-- INIT (rule R131): USAGE_LENGTH unless `LEN = 32`; every phase permits it (rule R182). -/
def execInit (payload : List Byte) (s : State) : Res State :=
  checked (payload.length == lenInit) true s (.next (initBody payload s))

/-- One byte of UPDATE: append it, and when the buffer holds 56 bytes fold the unit and empty the buffer
(rule R134). -/
def absorbByte (s : State) (b : Byte) : Res State :=
  andThen (memWrite s s.buflen.toNat b) fun s1 =>
    if s1.buflen.toNat = Config.unitBytes then andThen (batchFold s1) fun s2 => .next s2.bufEmpty
    else .next s1

/-- The loop of UPDATE over the payload, byte 0 first (rule R134). -/
def absorb (s : State) : List Byte → Res State
  | [] => .next s
  | b :: bs => andThen (absorbByte s b) fun s1 => absorb s1 bs

/-- UPDATE (rule R134): every `LEN` is legal (rule R74); USAGE_PHASE unless `PHASE = 1` (rule R182). -/
def execUpdate (payload : List Byte) (s : State) : Res State :=
  checked true (phasePermits s.phase) s
    (andThen (absorb s payload) fun t => .next (respond .ok [] t))

end Sys2Proof.Machine
end

