-- ==== Sys2Proof/Machine/Dispatch.lean ====
section
/-! DEFINITION. What an instruction does: one arm per constructor of Instr, each one call of its meaning. -/

namespace Sys2Proof.Machine

def exec (i : Instr) (s : State) : Host.Outcome State Fault Refusal :=
  match i with
  | .init payload => Sys2Proof.Machine.execInit payload s
  | .update payload => Sys2Proof.Machine.execUpdate payload s
  | .final payload => Sys2Proof.Machine.execFinal payload s
  | .verify payload => Sys2Proof.Machine.execVerify payload s
  | .fadd a b => Sys2Proof.Machine.execFadd a b s
  | .fcarry a => Sys2Proof.Machine.execFcarry a s
  | .fmul a b => Sys2Proof.Machine.execFmul a b s
  | .freduce a => Sys2Proof.Machine.execFreduce a s

end Sys2Proof.Machine
end

