-- ==== Sys2Proof/WellFormed.lean ====
section
/-! DEFINITION. Which instructions have an encoding: a command's payload length must fit the 24-bit `LEN` field. -/

namespace Sys2Proof

/-- `LEN` is 24 bits wide: 0 to 2^24 - 1 payload bytes (rule R71). -/
def lenFits (payload : List Byte) : Bool := decide (payload.length < 2 ^ Config.lenBits)

/-- An instruction that some header encodes: every command whose payload length fits `LEN`, legal length or not
(rules R71, R74), and every field-unit operation (its operands are right by type, rule R107). -/
def Instr.wellFormed : Instr → Bool
  | .init payload => lenFits payload
  | .update payload => lenFits payload
  | .final payload => lenFits payload
  | .verify payload => lenFits payload
  | .fadd _ _ => true
  | .fcarry _ => true
  | .fmul _ _ => true
  | .freduce _ => true

end Sys2Proof
end

