-- ==== Sys2Proof/Decode.lean ====
section
/-! DEFINITION. Decoding and encoding of the two instruction formats (spec/30_encoding.md). Decoding is total and
rejects by name. The encoder stands after the decoder and is written from the same tables. -/

namespace Sys2Proof

/-- Why an encoded form gives no instruction. -/
inductive DecodeError where
  /-- Fewer than four header bytes (rule R75): not a whole command (U12). -/
  | shortHeader
  /-- The payload is not the `LEN` bytes of the header (rule R71): not a whole command (U12). -/
  | payloadLength
  /-- `OPCODE` is 0x00 or 0x05 .. 0xFF (rules R73, R80, R184). -/
  | illegalOpcode
  /-- `FU_OP` is 000, 101, 110 or 111: never issued (rule R81, U18). -/
  | reservedFuOp
deriving DecidableEq, Repr

/-! ### The command header (rule R71) -/

/-- `OPCODE`, bits 7:0 of `CH` (rule R71). -/
def opcodeOf (ch : Header) : BitVec 8 := ch.extractLsb' 0 8

/-- `LEN`, bits 31:8 of `CH` (rule R71). -/
def lenOf (ch : Header) : BitVec 24 := ch.extractLsb' 8 24

/-- The header `CH` with the given `OPCODE` and `LEN` (rule R71). -/
def commandHeader (opcode : BitVec 8) (len : BitVec 24) : Header := len ++ opcode

/-! ### Opcode values (rule R73) and function-select codes (rule R79) -/

def opInit : BitVec 8 := 0x01
def opUpdate : BitVec 8 := 0x02
def opFinal : BitVec 8 := 0x03
def opVerify : BitVec 8 := 0x04

def fuFadd : BitVec 3 := 0b001
def fuFcarry : BitVec 3 := 0b010
def fuFmul : BitVec 3 := 0b011
def fuFreduce : BitVec 3 := 0b100

/-! ### Decoding -/

/-- The opcode map of rule R73: the command an opcode selects, or ILLEGAL_OPCODE (rule R87 check 1). -/
def decodeOpcode (opcode : BitVec 8) (payload : List Byte) : Except DecodeError Instr :=
  if opcode = opInit then .ok (.init payload)
  else if opcode = opUpdate then .ok (.update payload)
  else if opcode = opFinal then .ok (.final payload)
  else if opcode = opVerify then .ok (.verify payload)
  else .error .illegalOpcode

/-- Decode a command from its header and payload (rules R71, R73). `OPCODE` alone selects the command; the `LEN`
and `PHASE` checks of rule R87 belong to its execution. -/
def decodeCommand (ch : Header) (payload : List Byte) : Except DecodeError Instr :=
  if payload.length = (lenOf ch).toNat then decodeOpcode (opcodeOf ch) payload
  else .error .payloadLength

/-- Decode a field-unit issue (rule R79): every assigned code is its operation, whatever the operands hold. Each
operation looks at the inputs of its own width, FCARRY and FREDUCE at the first only (log entry 4). -/
def decodeFieldUnit (f : FuIssue) : Except DecodeError Instr :=
  if f.code = fuFadd then .ok (.fadd f.a f.b)
  else if f.code = fuFcarry then .ok (.fcarry f.a)
  else if f.code = fuFmul then .ok (.fmul f.x f.y)
  else if f.code = fuFreduce then .ok (.freduce f.x)
  else .error .reservedFuOp

/-- Decode an encoded instruction of either format (rule R70). -/
def decode : Encoding → Except DecodeError Instr
  | .command ch payload => decodeCommand ch payload
  | .fieldUnit f => decodeFieldUnit f

/-- Decode the command at the front of a byte stream (rule R75: four header bytes, least significant first, then
the payload): what it decodes to, and the bytes after it. The length of a command is 4 + `LEN` bytes for every
opcode, legal or not (rule R83), so the next header is found at the right place (rule R87). A stream that ends inside
a command, in its header or in its payload, is no event (U12) and is left as it stands, no byte of it taken (DESIGN
CHOICE, log entry 26: the spec does not say what becomes of the bytes). -/
def decodeBytes : List Byte → Except DecodeError Instr × List Byte
  | b0 :: b1 :: b2 :: b3 :: rest =>
    let ch : Header := BitVec.ofNat 32 (ofLE [b0, b1, b2, b3])
    let len := (lenOf ch).toNat
    if rest.length < len then (.error .payloadLength, b0 :: b1 :: b2 :: b3 :: rest)
    else (decodeCommand ch (rest.take len), rest.drop len)
  | short => (.error .shortHeader, short)

/-! ### Encoding -/

/-- The command with this opcode and payload: `LEN` is the payload's length (rules R71, R73). -/
def encodeCommand (opcode : BitVec 8) (payload : List Byte) : Encoding :=
  .command (commandHeader opcode (BitVec.ofNat 24 payload.length)) payload

/-- The encoding of an instruction (rules R71, R73, R79). -/
def encode : Instr → Encoding
  | .init payload => encodeCommand opInit payload
  | .update payload => encodeCommand opUpdate payload
  | .final payload => encodeCommand opFinal payload
  | .verify payload => encodeCommand opVerify payload
  | .fadd a b => .fieldUnit ⟨fuFadd, a, b, Narrow.zero, Narrow.zero⟩
  | .fcarry a => .fieldUnit ⟨fuFcarry, a, Wide.zero, Narrow.zero, Narrow.zero⟩
  | .fmul a b => .fieldUnit ⟨fuFmul, Wide.zero, Wide.zero, a, b⟩
  | .freduce a => .fieldUnit ⟨fuFreduce, Wide.zero, Wide.zero, a, Narrow.zero⟩

/-- A command on the wire: the header's four bytes, least significant first, then the payload (rule R75). -/
def wireBytes (ch : Header) (payload : List Byte) : List Byte := toLE 4 ch.toNat ++ payload

/-- The wire bytes of an encoded command; the field-unit format is internal and has none (rule R79). -/
def Encoding.wire : Encoding → List Byte
  | .command ch payload => wireBytes ch payload
  | .fieldUnit _ => []

/-! ### The opcode table's words -/

/-- The encoded form of an instruction whose bits, numbered as spec/opcode_table.json numbers them, are `w`, of
which the table gives `nbits`; every bit above is 0. A row of 32 bits or more is a command: bits 31:0 are its
header and the payload follows. A shorter row is a field-unit code, with operands of zeros; a code above
3 bits is no code and is read as the reserved 000. -/
def tableEncoding (nbits w : Nat) : Encoding :=
  let v := w % 2 ^ nbits
  if 32 ≤ nbits then
    let ch : Header := BitVec.ofNat 32 v
    .command ch (toLE (lenOf ch).toNat (v / 2 ^ 32))
  else .fieldUnit ⟨if v < 8 then BitVec.ofNat 3 v else 0, Wide.zero, Wide.zero, Narrow.zero, Narrow.zero⟩

/-- The instruction the decoder reads from such a word, or none where it refuses. -/
def decodeTableWord (nbits w : Nat) : Option Instr := (decode (tableEncoding nbits w)).toOption

end Sys2Proof
end

