-- ==== Sys2Proof/Machine/Fetch.lean ====
section
/-! DEFINITION. What the engine takes next: a field-unit operation presented on its own, else the host's next event
(spec/00_scope.md rules R13, R14; spec/30_encoding.md rule R87). -/

namespace Sys2Proof.Machine

/-- What there is to do in a state: an instruction to execute on a state, a state reached without one, or a stop. -/
inductive Fetched where
  | run (i : Instr) (s : State)
  | done (s : State)
  | stop (r : Refusal)
deriving DecidableEq, Repr

/-- A field-unit issue: the operation it decodes to, with the issue taken; a reserved code has no meaning (rule R81,
U18; log entry 5). -/
def fetchIssue (f : FuIssue) (s : State) : Fetched :=
  match decode (.fieldUnit f) with
  | .ok i => .run i (s.setFuIssue none)
  | .error _ => .stop .fieldUnitIssue

/-- A host event. Reset resets (rule R210). A command is consumed whole and decoded: an unassigned opcode is the error
ILLEGAL_OPCODE (rules R87, R184); a payload that is not the header's `LEN` bytes is no event (U12; log entry 9). -/
def fetchEvent (e : HostEvent) (later : List HostEvent) (s : State) : Fetched :=
  match e with
  | .reset => .done (applyReset s later)
  | .command ch payload =>
    match decode (.command ch payload) with
    | .ok i => .run i (s.setInbox later)
    | .error .illegalOpcode => .done (raiseError .illegalOpcode (s.setInbox later))
    | .error _ => .stop .partialCommand

/-- The next thing to do. With no event the engine waits and holds its state (rules R197, R210; log entry 10). A
field-unit issue comes before the host's next event (log entry 3). -/
def fetch (s : State) : Fetched :=
  match s.fuIssue with
  | some f => fetchIssue f s
  | none =>
    match s.inbox with
    | [] => .done s
    | e :: later => fetchEvent e later s

/-- `s` with an encoded instruction placed where `fetch` takes the next one: a command in front of the host's events,
with no field-unit issue before it, or a field-unit issue. -/
def place (s : State) (e : Encoding) : State :=
  match e with
  | .command ch payload => (s.setInbox (.command ch payload :: s.inbox)).setFuIssue none
  | .fieldUnit f => s.setFuIssue (some f)

end Sys2Proof.Machine
end

