-- ==== Sys2Proof/Machine/Step.lean ====
section
/-! DEFINITION. One step of the engine: one command executed to completion, one Reset, or one field-unit operation
presented on its own (spec/00_scope.md rule R13, spec/30_encoding.md rule R71). -/

namespace Sys2Proof.Machine

/-- One step. -/
def step (s : State) : Host.Outcome State Fault Refusal :=
  match fetch s with
  | .run i t => exec i t
  | .done t => .next t
  | .stop r => .refused r

/-- `s` with the instruction whose table-numbered bits are `w` placed where `step` takes its next instruction
(log entry 12). -/
def State.withFetchWord (s : State) (nbits w : Nat) : State := place s (tableEncoding nbits w)

end Sys2Proof.Machine
end

