-- ==== Sys2Proof/Machine/Reference.lean ====
section
/-! DEFINITION. Reference functions the spec states the engine's results against: the tag as a function of key and
message (rule R166), the recurrence of rule R138, the scalar K = 1 engine (rule R155), FCARRY on unbounded integers
(rule R105), and the pseudo-command AUTH (rules R85, R165). Nothing here is called by `step`. -/

namespace Sys2Proof.Machine

/-! ### The tag as a function (rules R138, R166) -/

/-- `m_j = LE(b) + 2^(8 len)`: the padded value of a block, as rules R138 and R166 write it. -/
def blockTerm (block : List Byte) : Nat := ofLE block + 2 ^ (8 * block.length)

/-- A message cut into blocks of 14 bytes, the last one possibly shorter, with `fuel` blocks at most (rule R166). -/
def blocksOf : Nat → List Byte → List (List Byte)
  | 0, _ => []
  | _ + 1, [] => []
  | fuel + 1, b :: bs => (b :: bs).take 14 :: blocksOf fuel ((b :: bs).drop 14)

/-- The blocks of a message: `ceil(L / 14)` of them (rule R166). -/
def messageBlocks (msg : List Byte) : List (List Byte) := blocksOf msg.length msg

/-- `H_(j+1) = (H_j + m_j) * r mod P`, from `h` on (rules R133, R138, R166). -/
def horner (r : Nat) (h : Nat) : List Nat → Nat
  | [] => h
  | m :: ms => horner r ((h + m) * r % Config.prime) ms

/-- `H_n` of a message under the evaluation key `r` (rule R166). -/
def messageHash (r : Nat) (msg : List Byte) : Nat := horner r 0 ((messageBlocks msg).map blockTerm)

/-- The sum over `j` of `m_j * r^(n - j)`, rule R166's other form of `H_n`. -/
def powerSum (r : Nat) : List Nat → Nat
  | [] => 0
  | m :: ms => m * r ^ (ms.length + 1) + powerSum r ms

/-- `tag = bytesLE_16((H_n + s) mod 2^128)` (rule R166). -/
def macTag (key msg : List Byte) : List Byte :=
  toLE 16 ((messageHash (evalKey key) msg + maskKey key) % 2 ^ 128)

/-! ### What the folds leave in `ACC`, limb for limb (rules R133, R134, R151, R160) -/

/-- `ACC` after BLOCKFOLDs of the given blocks in order, from `acc` on, under the register `R` (rules R133, R160). -/
def blocksFold (r acc : Narrow) : List (List Byte) → Narrow
  | [] => acc
  | block :: blocks => blocksFold r (fieldMul (carriedSum acc (split (paddedValue block))) r) blocks

/-- The padded value of block `j` of a unit (rule R132). -/
def unitBlock (unit : List Byte) (j : Nat) : Narrow := split (paddedValue ((unit.drop (14 * j)).take 14))

/-- `ACC` after BATCHFOLD of a unit of 56 bytes, from `acc` on, under the powers of `s` (rule R151). -/
def unitFold (s : State) (unit : List Byte) (acc : Narrow) : Narrow :=
  batchValue (s.setAcc acc) (unitBlock unit 0) (unitBlock unit 1) (unitBlock unit 2) (unitBlock unit 3)

/-- `ACC` after BATCHFOLDs of the first `count` units of a byte string, from `acc` on (rule R134). -/
def unitsFold (s : State) : Nat → List Byte → Narrow → Narrow
  | 0, _, acc => acc
  | count + 1, bs, acc => unitsFold s count (bs.drop 56) (unitFold s (bs.take 56) acc)

/-! ### Sequences of commands and AUTH -/

/-- Execute a list of instructions one after another (rule R13). -/
def execAll (run : Instr → State → Res State) : List Instr → State → Res State
  | [], s => .next s
  | i :: is, s => andThen (run i s) fun t => execAll run is t

/-- The largest payload of one UPDATE: 2^24 - 1 bytes (rule R71). -/
def maxPayload : Nat := 2 ^ Config.lenBits - 1

/-- A message cut into payloads that fit `LEN` (rules R74, R85), with `fuel` cuts at most; one empty payload for the
empty message (log entry 24). -/
def payloadsOf : Nat → List Byte → List (List Byte)
  | 0, msg => [msg]
  | fuel + 1, msg =>
    if msg.length ≤ maxPayload then [msg]
    else msg.take maxPayload :: payloadsOf fuel (msg.drop maxPayload)

/-- AUTH expanded: INIT, the UPDATEs that carry the message, FINAL (rule R85). -/
def authCommands (key msg : List Byte) : List Instr :=
  .init key :: (payloadsOf msg.length msg).map Instr.update ++ [.final []]

/-- AUTH as an operation (rule R165): its result is FINAL's response. -/
def execAuth (key msg : List Byte) (s : State) : Res State := execAll exec (authCommands key msg) s

/-! ### The scalar reference engine (rule R155) -/

/-- One byte of UPDATE in the K = 1 engine: fold as soon as 14 bytes stand in the buffer (rule R155). -/
def scalarAbsorbByte (s : State) (b : Byte) : Res State :=
  andThen (memWrite s s.buflen.toNat b) fun s1 =>
    if s1.buflen.toNat = Config.blockBytes then andThen (blockFold s1 0 14) fun s2 => .next s2.bufEmpty
    else .next s1

/-- The loop of UPDATE in the K = 1 engine (rule R155). -/
def scalarAbsorb (s : State) : List Byte → Res State
  | [] => .next s
  | b :: bs => andThen (scalarAbsorbByte s b) fun s1 => scalarAbsorb s1 bs

/-- The K = 1 engine: UPDATE by the scalar loop, everything else as in this hardware; its TAIL has at most a partial
block to fold (rule R155). -/
def scalarExec (i : Instr) (s : State) : Res State :=
  match i with
  | .update payload =>
    checked true (phasePermits s.phase) s
      (andThen (scalarAbsorb s payload) fun t => .next (respond .ok [] t))
  | other => exec other s

/-! ### FCARRY on unbounded integers (rules R102, R105) -/

/-- Steps S1, S3 and S5 with unbounded addition. -/
def exactLow (d : Nat × Nat) : Nat × Nat := (d.1 % 2 ^ 58, d.2 + d.1 / 2 ^ 58)

/-- Steps S2 and S4 with unbounded addition and multiplication. -/
def exactHigh (d : Nat × Nat) : Nat × Nat := (d.1 + 3 * (d.2 / 2 ^ 58), d.2 % 2 ^ 58)

/-- The five steps of FCARRY with unbounded arithmetic. -/
def exactCarry (d : Nat × Nat) : Nat × Nat := exactLow (exactHigh (exactLow (exactHigh (exactLow d))))

/-- Steps S1, S3 and S5 on integers reduced modulo 2^128 after each addition (rule R107). -/
def wrappedLow (d : Nat × Nat) : Nat × Nat := (d.1 % 2 ^ 58, (d.2 + d.1 / 2 ^ 58) % 2 ^ 128)

/-- Steps S2 and S4 on integers reduced modulo 2^128 after each addition (rule R107). -/
def wrappedHigh (d : Nat × Nat) : Nat × Nat := ((d.1 + 3 * (d.2 / 2 ^ 58)) % 2 ^ 128, d.2 % 2 ^ 58)

/-- The five steps of FCARRY on 128-bit lanes written as integers, whatever the lanes hold (rules R102, R107, U20). -/
def wrappedCarry (d : Nat × Nat) : Nat × Nat :=
  wrappedLow (wrappedHigh (wrappedLow (wrappedHigh (wrappedLow d))))

/-- `q` of rule R105(c): the sum of the carries `c` of steps S2 and S4. -/
def carryQuotient (d : Nat × Nat) : Nat :=
  (exactLow d).2 / 2 ^ 58 + (exactLow (exactHigh (exactLow d))).2 / 2 ^ 58

end Sys2Proof.Machine
end

