-- ==== Sys2Proof/Machine/Sequencer.lean ====
section
/-! DEFINITION. The sequencer's view of a command: the series of field-unit operations, buffer reads, buffer writes
and register moves it performs, with every address, as a function of the opcode, `LEN`, `PHASE` and `BUFLEN` ALONE
(rules R109, R216; operation counts of rule R217), and what performing such a series does. `exec` does not call it:
that a command's series gives what `exec` gives is a statement (log entry 23). -/

namespace Sys2Proof.Machine

/-- Where a field-unit operation takes an operand from or puts its result: a register, or one of four lane pairs
that live inside one command (rules R37, R151). -/
inductive Place where
  | acc | r | pow1 | pow2 | pow3 | pow4
  | lane1 | lane2 | lane3 | lane4
deriving DecidableEq, Repr

/-- One operation of a command's series. -/
inductive SeqOp where
  /-- KEYDERIVE's first part: `R`, `S` and `POW[1]` from the payload (rule R120). -/
  | loadKey
  /-- `ACC <- (0, 0)` (rule R131). -/
  | clearAcc
  /-- `BUF <- empty` (rule R54). -/
  | bufEmpty
  /-- `MemWrite(address, 1, payload[index])` (rule R54). -/
  | bufWrite (address index : Nat)
  /-- PADBLOCK(address, length) to a place (rule R132). -/
  | padBlock (address length : Nat) (dst : Place)
  /-- FADD, `FU_OP` 001 (rule R101). -/
  | fadd (x y dst : Place)
  /-- FCARRY, `FU_OP` 010 (rule R102). -/
  | fcarry (x dst : Place)
  /-- FMUL, `FU_OP` 011 (rule R103). -/
  | fmul (x y dst : Place)
  /-- FREDUCE, `FU_OP` 100 (rule R104). -/
  | freduce (x dst : Place)
  /-- The 128-bit addition of `S` and the tag bytes (rule R161). -/
  | addMask (x : Place)
  /-- CTEQ of the tag bytes and the payload (rule R163). -/
  | compare
  /-- `PHASE <- v` (rules R131, R162, R164). -/
  | setPhase (v : Phase)
  /-- The response with no payload, with the tag, or with CTEQ's result (rule R78). -/
  | respondPlain
  | respondTag
  | respondResult
  /-- An error response (rule R186). -/
  | raise (status : Status)
deriving DecidableEq, Repr

/-- What lives inside one command while its series is performed: lane pairs, the tag bytes, CTEQ's result. -/
structure Scratch where
  lane1 : Wide
  lane2 : Wide
  lane3 : Wide
  lane4 : Wide
  tag : List Byte
  result : Byte
deriving DecidableEq, Repr

def Scratch.empty : Scratch := ⟨Wide.zero, Wide.zero, Wide.zero, Wide.zero, [], 0⟩

/-- The pair at a place, on the lanes. -/
def readPlace (s : State) (x : Scratch) : Place → Wide
  | .acc => s.acc.widen
  | .r => s.r.widen
  | .pow1 => s.pow1.widen
  | .pow2 => s.pow2.widen
  | .pow3 => s.pow3.widen
  | .pow4 => s.pow4.widen
  | .lane1 => x.lane1
  | .lane2 => x.lane2
  | .lane3 => x.lane3
  | .lane4 => x.lane4

/-- A pair put at a place; a register takes it narrow (rule R37). -/
def writePlace (s : State) (x : Scratch) (v : Wide) : Place → State × Scratch
  | .acc => ({ s with acc := v.narrow }, x)
  | .r => ({ s with r := v.narrow }, x)
  | .pow1 => ({ s with pow1 := v.narrow }, x)
  | .pow2 => ({ s with pow2 := v.narrow }, x)
  | .pow3 => ({ s with pow3 := v.narrow }, x)
  | .pow4 => ({ s with pow4 := v.narrow }, x)
  | .lane1 => (s, { x with lane1 := v })
  | .lane2 => (s, { x with lane2 := v })
  | .lane3 => (s, { x with lane3 := v })
  | .lane4 => (s, { x with lane4 := v })

/-- One operation performed, with the command's payload at hand. -/
def perform (payload : List Byte) (op : SeqOp) (s : State) (x : Scratch) : Res (State × Scratch) :=
  match op with
  | .loadKey =>
    let r := split (evalKey payload)
    .next ({ s with r := r, pow1 := r, mask := BitVec.ofNat 128 (maskKey payload) }, x)
  | .clearAcc => .next (s.setAcc Narrow.zero, x)
  | .bufEmpty => .next (s.bufEmpty, x)
  | .bufWrite address index => andThen (memWrite s address (payload.getD index 0)) fun t => .next (t, x)
  | .padBlock address length dst =>
    andThen (Sys2Proof.Machine.padBlock s address length) fun m => .next (writePlace s x m.widen dst)
  | .fadd a b dst => .next (writePlace s x (fieldAdd (readPlace s x a) (readPlace s x b)) dst)
  | .fcarry a dst => .next (writePlace s x (fieldCarry (readPlace s x a)) dst)
  | .fmul a b dst =>
    .next (writePlace s x (fieldMul (readPlace s x a).narrow (readPlace s x b).narrow).widen dst)
  | .freduce a dst => .next (writePlace s x (fieldReduce (readPlace s x a).narrow).widen dst)
  | .addMask a =>
    .next (s, { x with tag := toLE 16 (BitVec.ofNat 128 (readPlace s x a).narrow.val + s.mask).toNat })
  | .compare => .next (s, { x with result := cteq x.tag payload })
  | .setPhase v => .next (s.setPhase v, x)
  | .respondPlain => .next (respond .ok [] s, x)
  | .respondTag => .next (respond .ok x.tag s, x)
  | .respondResult => .next (respond .ok [x.result] s, x)
  | .raise status => .next (raiseError status s, x)

/-- A series performed in order. -/
def performAll (payload : List Byte) : List SeqOp → State → Scratch → Res (State × Scratch)
  | [], s, x => .next (s, x)
  | op :: ops, s, x => andThen (perform payload op s x) fun p => performAll payload ops p.1 p.2

/-- What a series does to the state, from empty lanes. -/
def runSeries (payload : List Byte) (ops : List SeqOp) (s : State) : Res State :=
  andThen (performAll payload ops s Scratch.empty) fun p => .next p.1

/-! ### The series of each command -/

/-- INIT: a fixed list (rules R120, R131); three FMULs (rule R217). -/
def initSeries : List SeqOp :=
  [.loadKey, .fmul .pow1 .r .pow2, .fmul .pow2 .r .pow3, .fmul .pow3 .r .pow4,
   .clearAcc, .bufEmpty, .setPhase .accumulating, .respondPlain]

/-- BATCHFOLD and the emptying of the buffer (rules R134, R151). -/
def batchSeries : List SeqOp :=
  [.padBlock 0 14 .lane1, .padBlock 14 14 .lane2, .padBlock 28 14 .lane3, .padBlock 42 14 .lane4,
   .fadd .acc .lane1 .lane1, .fcarry .lane1 .lane1,
   .fmul .lane1 .pow4 .lane1, .fmul .lane2 .pow3 .lane2, .fmul .lane3 .pow2 .lane3, .fmul .lane4 .pow1 .lane4,
   .fadd .lane1 .lane2 .lane1, .fadd .lane1 .lane3 .lane1, .fadd .lane1 .lane4 .lane1,
   .fcarry .lane1 .acc, .bufEmpty]

/-- UPDATE of `len` more bytes, the next one `payload[index]`, with `n` bytes in the buffer (rule R134). -/
def updateSeries : Nat → Nat → Nat → List SeqOp
  | 0, _, _ => [.respondPlain]
  | len + 1, index, n =>
    if n + 1 = 56 then .bufWrite n index :: (batchSeries ++ updateSeries len (index + 1) 0)
    else .bufWrite n index :: updateSeries len (index + 1) (n + 1)

/-- BLOCKFOLD(address, length) (rule R133). -/
def blockSeries (address length : Nat) : List SeqOp :=
  [.padBlock address length .lane1, .fadd .acc .lane1 .lane1, .fcarry .lane1 .lane1, .fmul .lane1 .r .acc]

/-- The whole blocks of TAIL from block `j` on (rule R160). -/
def wholeSeries (j : Nat) : Nat → List SeqOp
  | 0 => []
  | count + 1 => blockSeries (14 * j) 14 ++ wholeSeries (j + 1) count

/-- TAGGEN with `n` bytes in the buffer: TAIL, FREDUCE, the addition of `S` (rules R160, R161). -/
def tagSeries (n : Nat) : List SeqOp :=
  wholeSeries 0 (n / 14) ++ (if n % 14 = 0 then [] else blockSeries (14 * (n / 14)) (n % 14))
    ++ [.bufEmpty, .freduce .acc .lane1, .addMask .lane1]

/-- FINAL (rule R162). -/
def finalSeries (n : Nat) : List SeqOp := tagSeries n ++ [.setPhase .finalized, .respondTag]

/-- VERIFY (rule R164). -/
def verifySeries (n : Nat) : List SeqOp := tagSeries n ++ [.compare, .setPhase .finalized, .respondResult]

/-- The error series of a failing check, or the series of the command's body (rule R87). -/
def checkedSeries (lenOk phaseOk : Bool) (body : List SeqOp) : List SeqOp :=
  match firstFailure lenOk phaseOk with
  | some status => [.raise status]
  | none => body

/-- The series of a command: a function of the opcode, `LEN`, `PHASE` and `BUFLEN` at its start and of nothing
else (rule R216). -/
def commandSeries (opcode : BitVec 8) (len : Nat) (phase : Phase) (buflen : Nat) : List SeqOp :=
  if opcode = opInit then checkedSeries (len == lenInit) true initSeries
  else if opcode = opUpdate then checkedSeries true (phasePermits phase) (updateSeries len 0 buflen)
  else if opcode = opFinal then checkedSeries (len == lenFinal) (phasePermits phase) (finalSeries buflen)
  else if opcode = opVerify then checkedSeries (len == lenVerify) (phasePermits phase) (verifySeries buflen)
  else [.raise .illegalOpcode]

/-! ### Operation counts (rule R217) -/

def SeqOp.isFmul : SeqOp → Bool
  | .fmul _ _ _ => true
  | _ => false

def SeqOp.isFadd : SeqOp → Bool
  | .fadd _ _ _ => true
  | _ => false

def SeqOp.isFcarry : SeqOp → Bool
  | .fcarry _ _ => true
  | _ => false

def SeqOp.isFreduce : SeqOp → Bool
  | .freduce _ _ => true
  | _ => false

def SeqOp.isBufWrite : SeqOp → Bool
  | .bufWrite _ _ => true
  | _ => false

def SeqOp.isCompare : SeqOp → Bool
  | .compare => true
  | _ => false

def SeqOp.isPadBlock : SeqOp → Bool
  | .padBlock _ _ _ => true
  | _ => false

end Sys2Proof.Machine
end

