-- ==== Sys2Proof/Safety.lean ====
section
/-! DEFINITION. What the claims are about: the invariants of the spec over a state (rules R42 and R138) and what it
means that host events are whole commands (rules R14, R71). -/

namespace Sys2Proof.Machine

/-- The cells that hold a byte string from address `a` up. -/
def cellsFrom : Nat → List Byte → List Host.Cell
  | _, [] => []
  | a, b :: bs => (a, b) :: cellsFrom (a + 1) bs

/-- The bytes of `BUF` in arrival order (rule R26). -/
def State.bufBytes (s : State) : List Byte := s.buf.map Prod.snd

/-- `BUF` is exactly the byte string `bs`, at addresses 0 upward, and `BUFLEN` counts it (rules R26, R27). -/
abbrev State.Holds (s : State) (bs : List Byte) : Prop :=
  s.buf = cellsFrom 0 bs ∧ s.buflen.toNat = bs.length

/-- Rule R42(e) with rules R26 and R27: `BUF` is a sequence of `BUFLEN` bytes, and 0 <= BUFLEN <= 55. -/
abbrev State.BufOk (s : State) : Prop := s.Holds s.bufBytes ∧ s.buflen.toNat ≤ 55

/-- Rules R42(c) and R42(d): `POW[1] = R` and `val(POW[i]) ≡ val(R)^i (mod P)`. -/
abbrev State.PowersOk (s : State) : Prop :=
  s.pow1 = s.r ∧
  s.pow2.val % Config.prime = s.r.val ^ 2 % Config.prime ∧
  s.pow3.val % Config.prime = s.r.val ^ 3 % Config.prime ∧
  s.pow4.val % Config.prime = s.r.val ^ 4 % Config.prime

/-- Rule R42(g): the registers are zero and the buffer empty. -/
abbrev State.Zeroed (s : State) : Prop :=
  s.acc = Narrow.zero ∧ s.r = Narrow.zero ∧ s.pow1 = Narrow.zero ∧ s.pow2 = Narrow.zero ∧
  s.pow3 = Narrow.zero ∧ s.pow4 = Narrow.zero ∧ s.mask = 0 ∧ s.buf = [] ∧ s.buflen = 0

/-- The invariant of rule R42, (b) to (e) and (g). Its parts (a), normalized registers, and (f), a phase of 0, 1 or
2, hold by the types of the fields. -/
abbrev State.Inv (s : State) : Prop :=
  s.r.l1.toNat < 2 ^ 54 ∧ s.PowersOk ∧ s.BufOk ∧ (s.phase = .idle → s.Zeroed)

/-- The part of a message in whole units of 56 bytes, already folded (rule R138). -/
def foldedPart (msg : List Byte) : List Byte := msg.take (56 * (msg.length / 56))

/-- The part of a message still in the buffer (rule R138). -/
def bufferedPart (msg : List Byte) : List Byte := msg.drop (56 * (msg.length / 56))

/-- Rule R138: `ACC` and `BUF` encode the message `msg` absorbed since the last INIT, under the key in `R`. -/
abbrev State.Absorbed (s : State) (msg : List Byte) : Prop :=
  s.Holds (bufferedPart msg) ∧ s.acc.val % Config.prime = messageHash s.r.val (foldedPart msg)

/-- A host event is a whole command: its payload is the `LEN` bytes of its header (rule R71). -/
def HostEvent.whole : HostEvent → Bool
  | .reset => true
  | .command ch payload => payload.length == (lenOf ch).toNat

/-- An instruction is a command (CMD format, rule R70), not a field-unit operation. -/
def isCommand : Instr → Bool
  | .init _ => true
  | .update _ => true
  | .final _ => true
  | .verify _ => true
  | .fadd _ _ => false
  | .fcarry _ => false
  | .fmul _ _ => false
  | .freduce _ => false

/-- A field-unit issue that means something: an assigned code of rule R79. -/
def FuIssueOk (f : FuIssue) : Bool :=
  match decode (.fieldUnit f) with
  | .ok _ => true
  | .error _ => false

/-- What waits to be taken is whole: every host event is a whole command or Reset, and a field-unit issue decodes. -/
def State.inputsWhole (s : State) : Bool :=
  s.inbox.all HostEvent.whole && s.fuIssue.all FuIssueOk

end Sys2Proof.Machine
end

