-- ==== Sys2Proof/Certificates/Slice0/Obligations.lean ====
section
/-! DEFINITION. The statements for the provers, each about every state or every operand its rule speaks of. Rules are
those of spec/; P is `Config.prime`. -/

open Sys2Proof Sys2Proof.Machine

/-! ### Encoding (spec/30_encoding.md) -/

/-- Decoding the encoding of a well-formed instruction gives it back, for all eight operations and every operand
(rules R71, R73, R79; the field unit's operand layout is the model's, log entry 4). -/
def Obligations.DecodeOfEncode : Prop :=
  ∀ i : Instr, i.wellFormed = true → decode (encode i) = .ok i

/-- A command form that decodes is the encoding of what it decodes to, which is well formed: each command has one
header and one payload (rules R71, R73). -/
def Obligations.EncodeOfDecodedCommand : Prop :=
  ∀ (ch : Header) (payload : List Byte) (i : Instr),
    decode (.command ch payload) = .ok i → encode i = .command ch payload ∧ i.wellFormed = true

/-- A command on a byte stream is 4 + `LEN` bytes, whatever its opcode, and decoding takes exactly those, so that the
next header is found at the right place (rules R75, R83, R87). -/
def Obligations.WireCommandTakesItsBytes : Prop :=
  ∀ (ch : Header) (payload rest : List Byte), payload.length = (lenOf ch).toNat →
    (wireBytes ch payload).length = 4 + (lenOf ch).toNat ∧
    decodeBytes (wireBytes ch payload ++ rest) = (decodeCommand ch payload, rest)

/-- Words written out from the encoding tables (rules R73, R75, R79 and 95_test_vectors.md section 9) decode to what
they stand for. The operand places of the four field-unit clauses (FADD and FCARRY at the wide inputs, FMUL and FREDUCE at
the narrow ones, FCARRY and FREDUCE at the first only) are the model's own layout (DESIGN CHOICE, log entry 4); rule R79 gives the codes. -/
def Obligations.WrittenWordsDecode : Prop :=
  (∀ key : List Byte, key.length = 32 →
    decodeBytes ([0x01, 0x20, 0x00, 0x00] ++ key) = (.ok (.init key), [])) ∧
  decodeBytes [0x02, 0x02, 0x00, 0x00, 0x61, 0x62] = (.ok (.update [0x61, 0x62]), []) ∧
  decodeBytes [0x03, 0x00, 0x00, 0x00, 0x02] = (.ok (.final []), [0x02]) ∧
  (∀ tag : List Byte, tag.length = 16 →
    decodeBytes ([0x04, 0x10, 0x00, 0x00] ++ tag) = (.ok (.verify tag), [])) ∧
  decodeBytes [0x7F, 0x03, 0x00, 0x00, 0x01, 0x02, 0x03] = (.error .illegalOpcode, []) ∧
  (∀ (a b : Wide) (x y : Narrow),
    decodeFieldUnit ⟨0b001, a, b, x, y⟩ = .ok (.fadd a b) ∧ decodeFieldUnit ⟨0b010, a, b, x, y⟩ = .ok (.fcarry a) ∧
    decodeFieldUnit ⟨0b011, a, b, x, y⟩ = .ok (.fmul x y) ∧ decodeFieldUnit ⟨0b100, a, b, x, y⟩ = .ok (.freduce x))

/-- The opcode map on whole commands: 0x01 to 0x04 select the four commands by `OPCODE` alone, every other opcode is
illegal (rules R73, R80). -/
def Obligations.OpcodeMap : Prop :=
  ∀ (ch : Header) (payload : List Byte), payload.length = (lenOf ch).toNat →
    decode (.command ch payload) =
      (match ch.toNat % 256 with
        | 1 => .ok (.init payload)
        | 2 => .ok (.update payload)
        | 3 => .ok (.final payload)
        | 4 => .ok (.verify payload)
        | _ => .error .illegalOpcode)

/-- What every field-unit issue decodes to: each assigned code is its operation, whatever the operands hold, and the
four reserved codes decode to nothing (rules R79, R81; where the operands stand is the model's, log entry 4). -/
def Obligations.FieldUnitCodes : Prop :=
  ∀ f : FuIssue, decode (.fieldUnit f) =
    (match f.code.toNat with
      | 1 => .ok (.fadd f.a f.b)
      | 2 => .ok (.fcarry f.a)
      | 3 => .ok (.fmul f.x f.y)
      | 4 => .ok (.freduce f.x)
      | _ => .error .reservedFuOp)

/-! ### One step (spec/00_scope.md, spec/70_reset_and_hazards.md) -/

/-- A STEP RUNS THE DECODED INSTRUCTION: when no field-unit issue stands before it and the host's next event is a
command that decodes to `i`, the step is `exec i` on the state with that event taken (rule R71; the inbox is the
model's own, log entry 1). -/
def Obligations.StepRunsDecodedCommand : Prop :=
  ∀ (s : State) (ch : Header) (payload : List Byte) (later : List HostEvent) (i : Instr),
    s.fuIssue = none → s.inbox = .command ch payload :: later → decode (.command ch payload) = .ok i →
    step s = exec i { s with inbox := later }

/-- A step runs a field-unit operation presented on its own: `exec` of what it decodes to, with the issue taken
(the model's own port, log entry 3). -/
def Obligations.StepRunsDecodedFieldUnitIssue : Prop :=
  ∀ (s : State) (f : FuIssue) (i : Instr), s.fuIssue = some f → decode (.fieldUnit f) = .ok i →
    step s = exec i { s with fuIssue := none }

/-- A word of the opcode table, placed where the step takes its next instruction, is run by that step: the step is
`exec` of what the word decodes to, on the state it was placed in with the other port as placing left it (log
entry 12). -/
def Obligations.StepRunsPlacedWord : Prop :=
  ∀ (s : State) (nbits w : Nat) (i : Instr), decodeTableWord nbits w = some i →
    step (s.withFetchWord nbits w) =
      exec i { s with fuIssue := none }

/-- An unassigned opcode: ERR is set, the response carries ILLEGAL_OPCODE with no payload, the command is consumed, and
nothing else changes (rules R184, R186). -/
def Obligations.IllegalOpcodeStep : Prop :=
  ∀ (s : State) (ch : Header) (payload : List Byte) (later : List HostEvent),
    s.fuIssue = none → s.inbox = .command ch payload :: later → payload.length = (lenOf ch).toNat →
    (ch.toNat % 256 = 0 ∨ 5 ≤ ch.toNat % 256) →
    step s = .next { s with
      inbox := later, err := true,
      responses := s.responses ++ [⟨responseHeader .illegalOpcode s.phase true 0, []⟩] }

/-- Reset: every register takes the value of rule R41 and no response is given; the host's later events and the
responses already given stay (rules R41, R210; the streams are the model's, log entry 11). -/
def Obligations.ResetStep : Prop :=
  ∀ (s : State) (later : List HostEvent), s.fuIssue = none → s.inbox = .reset :: later →
    ∃ t, step s = .next t ∧ t.Zeroed ∧ t.phase = .idle ∧ t.err = false ∧
      t.inbox = later ∧ t.responses = s.responses ∧ t.fuIssue = none ∧ t.fuOut = Wide.zero

/-- With nothing to take the engine waits and holds its state (rules R197, R210; log entry 10). -/
def Obligations.WaitingStepHoldsState : Prop :=
  ∀ s : State, s.fuIssue = none → s.inbox = [] → step s = .next s

/-- Where `step` stops by name on its inputs: an event whose payload is not the `LEN` bytes of its header, and a
field-unit issue with a reserved code; an issue with an assigned code completes, in every state and whatever its
operands hold (U12, U18, rule R107; log entries 3, 4, 5 and 9). -/
def Obligations.StepRefusesBrokenInputs : Prop :=
  (∀ (s : State) (ch : Header) (payload : List Byte) (later : List HostEvent),
    s.fuIssue = none → s.inbox = .command ch payload :: later → payload.length ≠ (lenOf ch).toNat →
    step s = .refused .partialCommand) ∧
  (∀ (s : State) (f : FuIssue), s.fuIssue = some f → (f.code.toNat = 0 ∨ 5 ≤ f.code.toNat) →
    step s = .refused .fieldUnitIssue) ∧
  (∀ (s : State) (f : FuIssue), s.fuIssue = some f → 1 ≤ f.code.toNat → f.code.toNat ≤ 4 →
    ∃ w : Wide, step s = .next { s with fuIssue := none, fuOut := w })

/-- Every whole input is taken and completes: from a state that meets the invariant and whose inputs are whole, the
step answers a next state with the same two properties, and a host event is taken when no field-unit issue stands
before it (rules R13, R220). That a waiting issue is taken before the host's next event is the model's choice (log
entry 3), and so is that a step with nothing to take answers next (log entry 10). -/
def Obligations.WholeInputsComplete : Prop :=
  ∀ s : State, s.Inv → s.inputsWhole = true →
    ∃ t, step s = .next t ∧ t.Inv ∧ t.inputsWhole = true ∧ t.fuIssue = none ∧
      (s.fuIssue = none → t.inbox = s.inbox.tail)

/-! ### Reset and invariants (spec/10_state.md) -/

/-- What reset leaves: the values of rule R41; nothing is there to be executed until the host presents it, which rests
on the inbox being empty and no field-unit issue waiting at reset (DESIGN CHOICE, log entries 1 and 3). -/
def Obligations.ResetValues : Prop :=
  State.reset.Zeroed ∧ State.reset.phase = .idle ∧ State.reset.err = false ∧
    ∀ (i : Instr) (t : State), fetch State.reset ≠ .run i t

/-- The invariant of rule R42 holds at reset, and the buffer's cells are in canonical form. -/
def Obligations.InvAtReset : Prop := State.reset.Inv ∧ Memory.wf State.reset.buf = true

/-- Every step keeps the invariant of rule R42, from every state that meets it. -/
def Obligations.StepKeepsInv : Prop :=
  ∀ s t : State, s.Inv → step s = .next t → t.Inv

/-- Every step keeps the canonical form of the buffer's cells, from every state that has it (log entry 7). -/
def Obligations.StepKeepsBufferForm : Prop :=
  ∀ s t : State, Memory.wf s.buf = true → step s = .next t → Memory.wf t.buf = true

/-- ERR is sticky: no step clears it but one that takes a Reset (rule R35). -/
def Obligations.ErrIsSticky : Prop :=
  ∀ s t : State, step s = .next t → s.err = true →
    t.err = true ∨ (s.fuIssue = none ∧ ∃ later, s.inbox = .reset :: later)

/-- The write map: what no instruction writes, and what each instruction leaves alone, `R`, `POW` and `S` among them
for every instruction but an INIT of 32 bytes (rule R43). The clauses on `inbox`, `fuIssue` and `fuOut` are about the
model's own fields and rest on its choices (log entries 1 and 3). -/
def Obligations.WriteMap : Prop :=
  ∀ (i : Instr) (s t : State), exec i s = .next t →
    t.inbox = s.inbox ∧ t.fuIssue = s.fuIssue ∧
    (isCommand i = true → t.fuOut = s.fuOut) ∧
    ((∀ key : List Byte, i = .init key → key.length ≠ 32) →
      t.r = s.r ∧ t.pow1 = s.pow1 ∧ t.pow2 = s.pow2 ∧ t.pow3 = s.pow3 ∧ t.pow4 = s.pow4 ∧ t.mask = s.mask) ∧
    (∀ data, i = .update data → t.phase = s.phase) ∧
    (isCommand i = false →
      t.acc = s.acc ∧ t.buf = s.buf ∧ t.buflen = s.buflen ∧ t.phase = s.phase ∧ t.err = s.err ∧
        t.responses = s.responses)

/-! ### Errors, phases, responses (spec/60_exceptions.md) -/

/-- USAGE_LENGTH, in every phase (so before the phase is looked at): INIT with `LEN` other than 32, FINAL with other
than 0, VERIFY with other than 16. ERR is set, the response carries the code and no payload, nothing else changes;
UPDATE never answers with it (rules R183, R186, R187). -/
def Obligations.UsageLengthError : Prop :=
  (∀ (payload : List Byte) (s : State) (i : Instr),
    (i = .init payload ∧ payload.length ≠ 32) ∨ (i = .final payload ∧ payload.length ≠ 0) ∨
      (i = .verify payload ∧ payload.length ≠ 16) →
    exec i s = .next { s with
      err := true, responses := s.responses ++ [⟨responseHeader .usageLength s.phase true 0, []⟩] }) ∧
  (∀ (payload : List Byte) (s t : State) (rsp : Response), exec (.update payload) s = .next t →
    t.responses = s.responses ++ [rsp] → rsp.header.toNat % 256 ≠ 2)

/-- USAGE_PHASE: UPDATE, and FINAL and VERIFY of legal length, in `Idle` or `Finalized`. ERR is set, the response
carries the code and no payload, nothing else changes; INIT never answers with it (rules R182, R186). -/
def Obligations.UsagePhaseError : Prop :=
  (∀ (payload : List Byte) (s : State) (i : Instr), s.phase ≠ .accumulating →
    i = .update payload ∨ (i = .final payload ∧ payload.length = 0) ∨ (i = .verify payload ∧ payload.length = 16) →
    exec i s = .next { s with
      err := true, responses := s.responses ++ [⟨responseHeader .usagePhase s.phase true 0, []⟩] }) ∧
  (∀ (payload : List Byte) (s t : State) (rsp : Response), exec (.init payload) s = .next t →
    t.responses = s.responses ++ [rsp] → rsp.header.toNat % 256 ≠ 1)

/-- The phase machine of rule R130: every command, legal or not, in every phase, an unassigned opcode, and Reset. -/
def Obligations.PhaseTable : Prop :=
  (∀ (i : Instr) (s t : State), exec i s = .next t →
    t.phase =
      (match i with
        | .init payload => if payload.length = 32 then .accumulating else s.phase
        | .update _ => s.phase
        | .final payload => if payload.length = 0 ∧ s.phase = .accumulating then .finalized else s.phase
        | .verify payload => if payload.length = 16 ∧ s.phase = .accumulating then .finalized else s.phase
        | _ => s.phase)) ∧
  (∀ (s t : State) (later : List HostEvent), s.fuIssue = none → s.inbox = .reset :: later →
    step s = .next t → t.phase = .idle) ∧
  (∀ (s t : State) (ch : Header) (payload : List Byte) (later : List HostEvent), s.fuIssue = none →
    s.inbox = .command ch payload :: later → decode (.command ch payload) = .error .illegalOpcode →
    step s = .next t → t.phase = s.phase)

/-- Exactly one response per command, which reports `PHASE` and `ERR` as they stand after it and its own payload
length; an error has no payload, sets ERR and changes nothing else; an OK leaves ERR alone and carries 0, 0, 16 or 1 payload bytes for
INIT, UPDATE, FINAL, VERIFY (rules R76, R78, R188, R198). -/
def Obligations.OneResponsePerCommand : Prop :=
  ∀ (i : Instr) (s t : State), isCommand i = true → exec i s = .next t →
    ∃ (status : Status) (payload : List Byte),
      t.responses =
        s.responses ++ [⟨responseHeader status t.phase t.err (BitVec.ofNat 8 payload.length), payload⟩] ∧
      (status ≠ .ok → payload = [] ∧ t = { s with err := true, responses := t.responses }) ∧
      (status = .ok → t.err = s.err ∧
        payload.length =
          (match i with
            | .final _ => 16
            | .verify _ => 1
            | _ => 0))

/-- The fields of the response header, bit by bit: `STATUS` 7:0 with the codes of rule R77, `PHASE` 9:8, `ERR` 10,
`RLEN` 23:16, and zero in the reserved bits 15:11 and 31:24 (rules R76, R77). -/
def Obligations.ResponseHeaderFields : Prop :=
  ∀ (status : Status) (phase : Phase) (err : Bool) (rlen : BitVec 8),
    let h := (responseHeader status phase err rlen).toNat
    h % 256 = (match status with | .ok => 0 | .usagePhase => 1 | .usageLength => 2 | .illegalOpcode => 3) ∧
    h / 256 % 4 = (match phase with | .idle => 0 | .accumulating => 1 | .finalized => 2) ∧
    h / 1024 % 2 = (if err then 1 else 0) ∧
    h / 2048 % 32 = 0 ∧
    h / 65536 % 256 = rlen.toNat ∧
    h / 16777216 = 0

/-- A response header tells nothing of the secrets: two commands with the same header, executed in states with the same
`PHASE` and `ERR`, get the same response header, whatever the key, the message and the registers hold (rules R14,
R76, R192). -/
def Obligations.HeadersTellNoSecrets : Prop :=
  ∀ (i j : Instr) (ch : Header) (p q : List Byte) (s u t v : State),
    decode (.command ch p) = .ok i → decode (.command ch q) = .ok j →
    s.phase = u.phase → s.err = u.err → exec i s = .next t → exec j u = .next v →
    t.responses.getLast?.map Response.header = v.responses.getLast?.map Response.header ∧
    t.phase = v.phase ∧ t.err = v.err

/-! ### INIT (spec/41_key_schedule.md, spec/42_streaming_engine.md rule R131) -/

/-- INIT with a 32-byte key completes in every phase and every state: `R` is the low 112 bits of the low key half, `S`
the high key half, `POW` the powers modulo P, each one FMUL of the one before by `R`, ACC zero, the buffer empty, the phase `Accumulating`; ERR and the
model's streams stay but for the response (rules R120 to R123, R131). -/
def Obligations.InitResult : Prop :=
  ∀ (key : List Byte) (s : State), key.length = 32 →
    ∃ t, exec (.init key) s = .next t ∧
      t.r.val = ofLE (key.take 16) % 2 ^ 112 ∧ t.r.l1.toNat < 2 ^ 54 ∧
      t.mask.toNat = ofLE (key.drop 16) ∧ t.PowersOk ∧
      t.pow2 = fieldMul t.r t.r ∧ t.pow3 = fieldMul t.pow2 t.r ∧ t.pow4 = fieldMul t.pow3 t.r ∧
      t.acc = Narrow.zero ∧ t.buf = [] ∧ t.buflen = 0 ∧ t.phase = .accumulating ∧ t.err = s.err ∧
      t.responses = s.responses ++ [⟨responseHeader .ok .accumulating s.err 0, []⟩] ∧
      t.inbox = s.inbox ∧ t.fuIssue = s.fuIssue ∧ t.fuOut = s.fuOut

/-- INIT leaves nothing of the old key and message, and does not see key bytes 14 and 15: from any two states, keys
that agree in bytes 0 to 13 and 16 to 31 leave the same registers, limb for limb (rules R121, R131; also 41_key_schedule.md
rule R126). -/
def Obligations.InitForgetsAndClamps : Prop :=
  ∀ (key key' : List Byte) (s s' t t' : State), key.length = 32 → key'.length = 32 →
    key.take 14 = key'.take 14 → key.drop 16 = key'.drop 16 →
    exec (.init key) s = .next t → exec (.init key') s' = .next t' →
    t = { t' with err := s.err, inbox := s.inbox, responses := t.responses, fuIssue := s.fuIssue, fuOut := s.fuOut }

/-! ### The field unit (spec/40_field_arithmetic.md) -/

/-- FADD completes on every pair of operands: each lane is the sum modulo 2^128, nothing else changes, and where no lane
reaches 2^128 the value is the sum of the values (rules R101, R107; the result port `fuOut` is the model's choice, log
entry 3, here and in the next three). -/
def Obligations.FaddResult : Prop :=
  ∀ (a b : Wide) (s : State), ∃ w : Wide,
    exec (.fadd a b) s = .next { s with fuOut := w } ∧
    w.d0.toNat = (a.d0.toNat + b.d0.toNat) % 2 ^ 128 ∧ w.d1.toNat = (a.d1.toNat + b.d1.toNat) % 2 ^ 128 ∧
    (a.d0.toNat + b.d0.toNat < 2 ^ 128 → a.d1.toNat + b.d1.toNat < 2 ^ 128 → w.val = a.val + b.val)

/-- FCARRY completes on every operand: the lanes are those of the five steps modulo 2^128, and nothing else changes.
Under the precondition of rule R102 no lane wraps, the result is normalized, its value is the operand's less `q * P`,
and a normalized operand comes back unchanged (rules R102, R105, R107; outside the precondition log entry 6). -/
def Obligations.FcarryResult : Prop :=
  ∀ (a : Wide) (s : State), ∃ w : Wide,
    exec (.fcarry a) s = .next { s with fuOut := w } ∧
    (w.d0.toNat, w.d1.toNat) = wrappedCarry (a.d0.toNat, a.d1.toNat) ∧
    (a.d0.toNat < 2 ^ 120 → a.d1.toNat < 2 ^ 120 →
      (w.d0.toNat, w.d1.toNat) = exactCarry (a.d0.toNat, a.d1.toNat) ∧
      w.d0.toNat < 2 ^ 58 ∧ w.d1.toNat < 2 ^ 58 ∧
      w.val + carryQuotient (a.d0.toNat, a.d1.toNat) * Config.prime = a.val) ∧
    (a.d0.toNat < 2 ^ 58 → a.d1.toNat < 2 ^ 58 → w = a)

/-- FMUL completes on every pair of operands: a normalized result whose value is the product modulo P, and nothing else
changes (rule R103). -/
def Obligations.FmulResult : Prop :=
  ∀ (a b : Narrow) (s : State), ∃ w : Narrow,
    exec (.fmul a b) s = .next { s with fuOut := w.widen } ∧
    w.val % Config.prime = a.val * b.val % Config.prime ∧
    (w.l0.toNat, w.l1.toNat) = exactCarry
      (a.l0.toNat * b.l0.toNat + 3 * (a.l1.toNat * b.l1.toNat), a.l0.toNat * b.l1.toNat + a.l1.toNat * b.l0.toNat)

/-- FREDUCE completes on every operand: the canonical pair of the operand's value modulo P, and nothing else changes
(rule R104). -/
def Obligations.FreduceResult : Prop :=
  ∀ (a : Narrow) (s : State), ∃ w : Narrow,
    exec (.freduce a) s = .next { s with fuOut := w.widen } ∧
    w.val = a.val % Config.prime ∧ w.isCanonical = true

/-- The field unit is integer arithmetic modulo P: FMUL, FREDUCE and the carried FADD of two normalized pairs have the
values of the product, the residue and the sum modulo P; their lanes are below 2^58 before they are delivered
narrow, FREDUCE's result is canonical, and FCARRY leaves a normalized pair alone (rule R110). -/
def Obligations.FieldUnitIsIntegerArithmetic : Prop :=
  ∀ a b : Narrow,
    ((fieldMul a b).val % Config.prime = a.val * b.val % Config.prime ∧
      (fieldMul a b).widen = fieldCarry (crossSums a b)) ∧
    ((fieldReduce a).val = a.val % Config.prime ∧ (fieldReduce a).isCanonical = true) ∧
    ((carriedSum a b).val % Config.prime = (a.val + b.val) % Config.prime ∧
      (carriedSum a b).widen = fieldCarry (fieldAdd a.widen b.widen)) ∧
    fieldCarry a.widen = a.widen

/-- BATCHFOLD's sum of four products is within FCARRY's precondition: the lanes are below 2^60, the carried sum loses
nothing when it is delivered narrow, and its value is the sum modulo P (rules R106, R151). -/
def Obligations.FourProductSumLosesNothing : Prop :=
  ∀ p1 p2 p3 p4 : Narrow,
    let w := fieldAdd (fieldAdd (fieldAdd p1.widen p2.widen) p3.widen) p4.widen
    w.d0.toNat < 2 ^ 60 ∧ w.d1.toNat < 2 ^ 60 ∧
    (fieldCarry w).narrow.widen = fieldCarry w ∧
    (fieldCarry w).narrow.val % Config.prime = (p1.val + p2.val + p3.val + p4.val) % Config.prime

/-! ### The buffer and the padded block (spec/20_memory.md, rule R132) -/

/-- MemWrite appends, MemRead reads little-endian and changes nothing: with `bs` in the buffer, a write at `BUFLEN` puts
the byte after them, and a read inside `BUFLEN` gives the integer of those bytes (rules R52, R53, R54). -/
def Obligations.BufferAppendsAndReads : Prop :=
  ∀ (s : State) (bs : List Byte), s.Holds bs →
    (∀ b, bs.length ≤ 55 → ∃ t, memWrite s bs.length b = .next t ∧ t.Holds (bs ++ [b]) ∧
      t = { s with buf := t.buf, buflen := t.buflen }) ∧
    (∀ a n, 1 ≤ n → n ≤ 14 → a + n ≤ bs.length → a + n ≤ 56 →
      memRead s a n = .next (ofLE ((bs.drop a).take n)))

/-- Accesses the spec never issues stop by name: a read of no bytes, of more than 14 or beyond `BUFLEN`, a write not at
`BUFLEN` or with 56 bytes and more in the buffer, and PADBLOCK of no bytes or more than 14 are refused; a read that a
`BUFLEN` above 56 would permit past address 55 faults (rules R50, R53, R54, R132, U21; the order of the checks is the
model's choice, log entry 8). -/
def Obligations.BufferStopsOutOfRange : Prop :=
  ∀ (s : State) (a n : Nat) (b : Byte),
    (n = 0 ∨ 14 < n → memRead s a n = .refused .memRead ∧ padBlock s a n = .refused .blockLength) ∧
    (1 ≤ n → n ≤ 14 → s.buflen.toNat < a + n →
      memRead s a n = .refused .memRead ∧ padBlock s a n = .refused .memRead) ∧
    (1 ≤ n → n ≤ 14 → a + n ≤ s.buflen.toNat → 56 < a + n →
      memRead s a n = .fault .bufferAddress ∧ padBlock s a n = .fault .bufferAddress) ∧
    (a ≠ s.buflen.toNat ∨ 56 ≤ s.buflen.toNat → memWrite s a b = .refused .memWrite)

/-- PADBLOCK: the block's little-endian integer plus the padding bit at bit 8 n, split into limbs; below P, so canonical
(rule R132). -/
def Obligations.PadBlockValue : Prop :=
  ∀ (s : State) (bs : List Byte) (a n : Nat), s.Holds bs → 1 ≤ n → n ≤ 14 → a + n ≤ bs.length → a + n ≤ 56 →
    ∃ m, padBlock s a n = .next m ∧
      m.val = ofLE ((bs.drop a).take n) + 2 ^ (8 * n) ∧
      2 ^ (8 * n) ≤ m.val ∧ m.val < 2 ^ (8 * n + 1) ∧ m.isCanonical = true

/-- The padding separates: blocks of any lengths with the same padded value are the same block (rule R132, corner
cases). -/
def Obligations.PaddingIsInjective : Prop :=
  ∀ a b : List Byte, paddedValue a = paddedValue b → a = b

/-- How the bytes of a full block lie in the limbs: limb 0 holds bytes 0 to 6 and the low 2 bits of byte 7; limb 1 holds
the upper 6 bits of byte 7 at its bits 5:0, bytes 8 to 13 at its bits 53:6 and the padding bit at its bit 54
(rule R64). -/
def Obligations.FullBlockLayout : Prop :=
  ∀ (lo hi : List Byte) (b7 : Byte), lo.length = 7 → hi.length = 6 →
    (split (paddedValue (lo ++ b7 :: hi))).l0.toNat = ofLE lo + 2 ^ 56 * (b7.toNat % 4) ∧
    (split (paddedValue (lo ++ b7 :: hi))).l1.toNat = b7.toNat / 4 + 2 ^ 6 * ofLE hi + 2 ^ 54

/-! ### Folds (rules R133, R151, R160) -/

/-- BLOCKFOLD: `ACC` becomes `FMUL(FCARRY(FADD(ACC, M)), R)` for the padded block `M`, which is `(ACC + m) * r` modulo
P, and nothing else changes (rule R133). -/
def Obligations.BlockFoldResult : Prop :=
  ∀ (s : State) (bs : List Byte) (a n : Nat), s.Holds bs → 1 ≤ n → n ≤ 14 → a + n ≤ bs.length → a + n ≤ 56 →
    ∃ m v : Narrow, padBlock s a n = .next m ∧ v = fieldMul (fieldCarry (fieldAdd s.acc.widen m.widen)).narrow s.r ∧
      blockFold s a n = .next { s with acc := v } ∧
      v.val % Config.prime =
        (s.acc.val + (ofLE ((bs.drop a).take n) + 2 ^ (8 * n))) * s.r.val % Config.prime

/-- BATCHFOLD on a full buffer: `ACC` becomes the register value of rule R151's routine on the four padded blocks, and
nothing else changes; with true powers its value is `(acc + m_1) r^4 + m_2 r^3 + m_3 r^2 + m_4 r` modulo P
(rules R150, R151). -/
def Obligations.BatchFoldResult : Prop :=
  ∀ (s : State) (b1 b2 b3 b4 : List Byte), b1.length = 14 → b2.length = 14 → b3.length = 14 → b4.length = 14 →
    s.Holds (b1 ++ b2 ++ b3 ++ b4) →
    ∃ p1 p2 p3 p4 v : Narrow,
      p1 = fieldMul (fieldCarry (fieldAdd s.acc.widen (split (paddedValue b1)).widen)).narrow s.pow4 ∧
      p2 = fieldMul (split (paddedValue b2)) s.pow3 ∧
      p3 = fieldMul (split (paddedValue b3)) s.pow2 ∧
      p4 = fieldMul (split (paddedValue b4)) s.pow1 ∧
      v.widen = fieldCarry (fieldAdd (fieldAdd (fieldAdd p1.widen p2.widen) p3.widen) p4.widen) ∧
      batchFold s = .next { s with acc := v } ∧
      (s.PowersOk → v.val % Config.prime =
        ((s.acc.val + blockTerm b1) * s.r.val ^ 4 + blockTerm b2 * s.r.val ^ 3 + blockTerm b3 * s.r.val ^ 2 +
          blockTerm b4 * s.r.val) % Config.prime)

/-- BATCHFOLD against four BLOCKFOLDs: with a full buffer and true powers both complete, and leave the same state but for
`ACC`, which is the same modulo P (rule R154). -/
def Obligations.BatchEqualsFourBlockFolds : Prop :=
  ∀ (s : State) (bs : List Byte), s.Holds bs → bs.length = 56 → s.PowersOk →
    ∃ v w : Narrow, batchFold s = .next { s with acc := v } ∧
      (andThen (blockFold s 0 14) fun s1 => andThen (blockFold s1 14 14) fun s2 =>
        andThen (blockFold s2 28 14) fun s3 => blockFold s3 42 14) = .next { s with acc := w } ∧
      v.val % Config.prime = w.val % Config.prime

/-- TAIL: the blocks of what is left are folded in order by BLOCKFOLD, each with the padding bit above its own length,
none when nothing is left; the buffer is emptied and nothing else changes (rule R160). -/
def Obligations.TailResult : Prop :=
  ∀ (s : State) (bs : List Byte), s.Holds bs → bs.length ≤ 55 →
    ∃ v : Narrow, tail s = .next { s with acc := v, buf := [], buflen := 0 } ∧
      v = blocksFold s.r s.acc (messageBlocks bs) ∧
      v.val % Config.prime =
        horner s.r.val s.acc.val ((messageBlocks bs).map blockTerm) % Config.prime

/-! ### UPDATE (rules R134 to R138) -/

/-- UPDATE completes in `Accumulating` for every payload: of the buffered bytes followed by the payload, every whole unit
of 56 is folded by BATCHFOLD, which with true powers is block by block modulo P, and the rest is what the buffer
holds; `BUFLEN` is the count modulo 56; only `ACC`, the buffer and the responses change (rules R134, R154). -/
def Obligations.UpdateResult : Prop :=
  ∀ (s : State) (bs data : List Byte), s.phase = .accumulating → s.Holds bs → bs.length ≤ 55 →
    ∃ t, exec (.update data) s = .next t ∧
      t.Holds (bufferedPart (bs ++ data)) ∧
      t.buflen.toNat = (s.buflen.toNat + data.length) % 56 ∧
      (∀ a : Nat, lookup t.buf a = (bufferedPart (bs ++ data))[a]?) ∧
      t.acc = unitsFold s ((bs.length + data.length) / 56) (bs ++ data) s.acc ∧
      (s.PowersOk → t.acc.val % Config.prime =
        horner s.r.val s.acc.val ((messageBlocks (foldedPart (bs ++ data))).map blockTerm) % Config.prime) ∧
      t = { s with acc := t.acc, buf := t.buf, buflen := t.buflen,
                   responses := s.responses ++ [⟨responseHeader .ok .accumulating s.err 0, []⟩] }

/-- UPDATE with `LEN = 0` changes nothing but the responses in `Accumulating`, in every state, and is USAGE_PHASE
elsewhere (rule R135). -/
def Obligations.ZeroLengthUpdate : Prop :=
  ∀ s : State,
    exec (.update []) s =
      if s.phase = .accumulating then
        .next { s with responses := s.responses ++ [⟨responseHeader .ok .accumulating s.err 0, []⟩] }
      else
        .next { s with
          err := true, responses := s.responses ++ [⟨responseHeader .usagePhase s.phase true 0, []⟩] }

/-- Chunk invariance: a sequence of UPDATEs leaves the state one UPDATE of all their bytes leaves, but for the responses;
empty chunks included (rule R136). -/
def Obligations.ChunkInvariance : Prop :=
  ∀ (s : State) (chunks : List (List Byte)), s.phase = .accumulating → s.BufOk →
    ∃ t u, execAll exec (chunks.map Instr.update) s = .next t ∧ exec (.update chunks.flatten) s = .next u ∧
      t = { u with responses := t.responses }

/-- What `ACC` and `BUF` mean: INIT starts with nothing absorbed, an UPDATE that completes extends the message by its
payload, and no other instruction that leaves the phase `Accumulating` changes what is absorbed (rule R138). -/
def Obligations.AbsorbedMessage : Prop :=
  (∀ (key : List Byte) (s t : State), key.length = 32 → exec (.init key) s = .next t → t.Absorbed []) ∧
  (∀ (msg data : List Byte) (s t : State), s.phase = .accumulating → s.PowersOk → s.Absorbed msg →
    exec (.update data) s = .next t → t.Absorbed (msg ++ data)) ∧
  (∀ (msg : List Byte) (i : Instr) (s t : State), s.phase = .accumulating → s.Absorbed msg →
    exec i s = .next t → t.phase = .accumulating → (∀ data, i ≠ .update data) →
    (∀ key, i = .init key → key.length ≠ 32) → t.Absorbed msg)

/-! ### FINAL and VERIFY (spec/44_finalize_verify.md) -/

/-- FINAL completes in `Accumulating` whatever is buffered: the tag is the folded accumulator reduced modulo P plus `S`
modulo 2^128, in 16 little-endian bytes; the phase is `Finalized`, the buffer empty, `ACC` the last fold's result (not the
reduced value), and nothing else changes (rules R160, R161, R162, R168). -/
def Obligations.FinalResult : Prop :=
  ∀ (s : State) (bs : List Byte), s.phase = .accumulating → s.Holds bs → bs.length ≤ 55 →
    ∃ v : Narrow, v = blocksFold s.r s.acc (messageBlocks bs) ∧
      v.val % Config.prime = horner s.r.val s.acc.val ((messageBlocks bs).map blockTerm) % Config.prime ∧
      exec (.final []) s = .next { s with
        acc := v, buf := [], buflen := 0, phase := .finalized,
        responses := s.responses ++ [⟨responseHeader .ok .finalized s.err 16,
          toLE 16 ((v.val % Config.prime + s.mask.toNat) % 2 ^ 128)⟩] }

/-- VERIFY completes in `Accumulating` for every 16 bytes presented: the one result byte is 1 exactly when they are the tag
FINAL would give, else 0, which is no error; the rest is as after FINAL (rules R163, R164, R185). -/
def Obligations.VerifyResult : Prop :=
  ∀ (s : State) (bs expected : List Byte), s.phase = .accumulating → s.Holds bs → bs.length ≤ 55 →
    expected.length = 16 →
    ∃ v : Narrow, v = blocksFold s.r s.acc (messageBlocks bs) ∧
      v.val % Config.prime = horner s.r.val s.acc.val ((messageBlocks bs).map blockTerm) % Config.prime ∧
      exec (.verify expected) s = .next { s with
        acc := v, buf := [], buflen := 0, phase := .finalized,
        responses := s.responses ++ [⟨responseHeader .ok .finalized s.err 1,
          [if toLE 16 ((v.val % Config.prime + s.mask.toNat) % 2 ^ 128) = expected then 1 else 0]⟩] }

/-- CTEQ is equality of strings of one length: 1 exactly when no byte differs, else 0 (rule R163). -/
def Obligations.CteqIsEquality : Prop :=
  ∀ t e : List Byte, t.length = e.length → cteq t e = if t = e then 1 else 0

/-! ### Whole messages (rules R155, R165 to R167, R186) -/

/-- The tag: INIT, any UPDATEs, FINAL, from any state, completes and FINAL's response carries the tag of rule R166, a
function of the key and the concatenated message alone; its `H_n` is also the sum of `m_j * r^(n - j)` modulo P. -/
def Obligations.TagOfMessage : Prop :=
  (∀ (s : State) (key : List Byte) (chunks : List (List Byte)), key.length = 32 →
    ∃ t, execAll exec (.init key :: chunks.map Instr.update ++ [.final []]) s = .next t ∧
      t.responses.getLast? = some ⟨responseHeader .ok .finalized s.err 16, macTag key chunks.flatten⟩) ∧
  (∀ (r : Nat) (msg : List Byte),
    messageHash r msg = powerSum r ((messageBlocks msg).map blockTerm) % Config.prime)

/-- VERIFY after the same commands answers 1 exactly for the tag of rule R166 (rules R164, R166). -/
def Obligations.VerifyOfMessage : Prop :=
  ∀ (s : State) (key expected : List Byte) (chunks : List (List Byte)), key.length = 32 → expected.length = 16 →
    ∃ t, execAll exec (.init key :: chunks.map Instr.update ++ [.verify expected]) s = .next t ∧
      t.responses.getLast? = some ⟨responseHeader .ok .finalized s.err 1,
        [if macTag key chunks.flatten = expected then 1 else 0]⟩

/-- The batched engine and the scalar K = 1 engine give the same responses, bit for bit, to INIT, any UPDATEs, and FINAL or
VERIFY (rule R155). -/
def Obligations.BatchedEqualsScalarEngine : Prop :=
  ∀ (s : State) (key : List Byte) (chunks : List (List Byte)) (last : Instr), key.length = 32 →
    (last = .final [] ∨ ∃ expected : List Byte, expected.length = 16 ∧ last = .verify expected) →
    ∃ t u, execAll exec (.init key :: chunks.map Instr.update ++ [last]) s = .next t ∧
      execAll scalarExec (.init key :: chunks.map Instr.update ++ [last]) s = .next u ∧
      t.responses = u.responses

/-- AUTH: issued in any state with a 32-byte key it completes without an error, in `Finalized`, with FINAL's response
carrying the tag of rule R166; every command it issues fits a header (rules R85, R165; log entry 24). -/
def Obligations.AuthGivesTag : Prop :=
  ∀ (s : State) (key msg : List Byte), key.length = 32 →
    (∀ i ∈ authCommands key msg, i.wellFormed = true) ∧
    ∃ t, execAuth key msg s = .next t ∧ t.phase = .finalized ∧ t.err = s.err ∧
      t.responses.getLast? = some ⟨responseHeader .ok .finalized s.err 16, macTag key msg⟩

/-- Two properties of the tag: for the empty message it is key bytes 16 to 31, and the all-zero key gives the all-zero tag
for every message (rule R167; the function is the one FINAL's response is stated equal to). -/
def Obligations.TagCornerCases : Prop :=
  (∀ key : List Byte, key.length = 32 → macTag key [] = key.drop 16) ∧
  (∀ msg : List Byte, macTag (List.replicate 32 0) msg = List.replicate 16 0)

/-- An erroneous command does not damage the message in progress: INIT, UPDATE(a), any whole command with an unassigned
opcode or an illegal length, UPDATE(b), FINAL, taken by five steps, ends with the tag of a followed by b (rule R186). -/
def Obligations.BadCommandDoesNoDamage : Prop :=
  ∀ (s : State) (key a b bad : List Byte) (ch : Header) (later : List HostEvent),
    key.length = 32 → a.length < 2 ^ 24 → b.length < 2 ^ 24 → bad.length = (lenOf ch).toNat →
    (ch.toNat % 256 = 0 ∨ 5 ≤ ch.toNat % 256 ∨ (ch.toNat % 256 = 1 ∧ bad.length ≠ 32) ∨
      (ch.toNat % 256 = 3 ∧ bad.length ≠ 0) ∨ (ch.toNat % 256 = 4 ∧ bad.length ≠ 16)) →
    s.fuIssue = none →
    s.inbox =
      .command (commandHeader 0x01 32) key :: .command (commandHeader 0x02 (BitVec.ofNat 24 a.length)) a ::
      .command ch bad :: .command (commandHeader 0x02 (BitVec.ofNat 24 b.length)) b ::
      .command (commandHeader 0x03 0) [] :: later →
    ∃ t, Host.Core.run Sys2Proof.core 5 s = .next t ∧ t.inbox = later ∧ t.err = true ∧
      t.responses.getLast? = some ⟨responseHeader .ok .finalized true 16, macTag key (a ++ b)⟩

/-! ### Constant time (rules R216, R217, R220) -/

/-- A command is its series: for every state and every whole command, the step gives what performing the series of
operations gives that `commandSeries` writes down from the opcode, `LEN`, `PHASE` and `BUFLEN` alone, stops included
(rule R216; the series' spelling is the model's, log entry 23). -/
def Obligations.CommandIsItsSeries : Prop :=
  ∀ (s : State) (ch : Header) (payload : List Byte) (later : List HostEvent),
    s.fuIssue = none → s.inbox = .command ch payload :: later → payload.length = (lenOf ch).toNat →
    step s =
      runSeries payload (commandSeries (opcodeOf ch) payload.length s.phase s.buflen.toNat) { s with inbox := later }

/-- Operation counts of the series of the four commands, in the model's own spelling of a series (DESIGN CHOICE, log
entry 23). INIT performs 3 FMUL. UPDATE of `len` bytes on `n` buffered ones writes the buffer `len` times and performs
one batch (4 FMUL, 4 FADD, of which one is the carried sum's, 2 FCARRY) per unit completed. FINAL and VERIFY perform
`ceil(n / 14)` block folds (1 block read, 1 FADD, 1 FCARRY, 1 FMUL each) and one FREDUCE; VERIFY adds one comparison of
the tag bytes, FINAL none (rules R217, R220). -/
def Obligations.OperationCounts : Prop :=
  initSeries.countP SeqOp.isFmul = 3 ∧
  (∀ len index n : Nat, n ≤ 55 →
    (updateSeries len index n).countP SeqOp.isBufWrite = len ∧
    (updateSeries len index n).countP SeqOp.isFmul = 4 * ((n + len) / 56) ∧
    (updateSeries len index n).countP SeqOp.isFadd = 4 * ((n + len) / 56) ∧
    (updateSeries len index n).countP SeqOp.isFcarry = 2 * ((n + len) / 56)) ∧
  (∀ (n : Nat) (ops : List SeqOp), n ≤ 55 → ops = finalSeries n ∨ ops = verifySeries n →
    ops.countP SeqOp.isPadBlock = (n + 13) / 14 ∧
    ops.countP SeqOp.isFadd = (n + 13) / 14 ∧
    ops.countP SeqOp.isFcarry = (n + 13) / 14 ∧
    ops.countP SeqOp.isFmul = (n + 13) / 14 ∧
    ops.countP SeqOp.isFreduce = 1) ∧
  (∀ n : Nat, n ≤ 55 →
    (verifySeries n).countP SeqOp.isCompare = 1 ∧ (finalSeries n).countP SeqOp.isCompare = 0)
end

