-- ==== Sys2Proof/Laws/Config.lean ====
section
/-! SUPPORT. The parameters of rule R7 as numerals, for simp, omega and norm_num. -/

namespace Sys2Proof.Config

/-- The expansion rule R7 prints: P = 83076749736557242056487941267521533. -/
@[simp] theorem prime_eq : prime = 83076749736557242056487941267521533 := by decide
@[simp] theorem clampBits_eq : clampBits = 112 := rfl
@[simp] theorem blockBytes_eq : blockBytes = 14 := rfl
@[simp] theorem unitBytes_eq : unitBytes = 56 := rfl
@[simp] theorem lenBits_eq : lenBits = 24 := rfl
@[simp] theorem keyBytes_eq : keyBytes = 32 := rfl
@[simp] theorem tagBytes_eq : tagBytes = 16 := rfl

end Sys2Proof.Config
end

