-- ==== Sys2Proof/Laws/State.lean ====
section
/-! SUPPORT. What each register write leaves in each field: one lemma per field per update, so that no proof unfolds
a record update. -/

namespace Sys2Proof.Machine

/-! ### `setAcc` -/

@[simp] theorem State.setAcc_acc (s : State) (v : Narrow) : (s.setAcc v).acc = v := rfl
@[simp] theorem State.setAcc_r (s : State) (v : Narrow) : (s.setAcc v).r = s.r := rfl
@[simp] theorem State.setAcc_pow1 (s : State) (v : Narrow) : (s.setAcc v).pow1 = s.pow1 := rfl
@[simp] theorem State.setAcc_pow2 (s : State) (v : Narrow) : (s.setAcc v).pow2 = s.pow2 := rfl
@[simp] theorem State.setAcc_pow3 (s : State) (v : Narrow) : (s.setAcc v).pow3 = s.pow3 := rfl
@[simp] theorem State.setAcc_pow4 (s : State) (v : Narrow) : (s.setAcc v).pow4 = s.pow4 := rfl
@[simp] theorem State.setAcc_mask (s : State) (v : Narrow) : (s.setAcc v).mask = s.mask := rfl
@[simp] theorem State.setAcc_buf (s : State) (v : Narrow) : (s.setAcc v).buf = s.buf := rfl
@[simp] theorem State.setAcc_buflen (s : State) (v : Narrow) : (s.setAcc v).buflen = s.buflen := rfl
@[simp] theorem State.setAcc_phase (s : State) (v : Narrow) : (s.setAcc v).phase = s.phase := rfl
@[simp] theorem State.setAcc_err (s : State) (v : Narrow) : (s.setAcc v).err = s.err := rfl
@[simp] theorem State.setAcc_inbox (s : State) (v : Narrow) : (s.setAcc v).inbox = s.inbox := rfl
@[simp] theorem State.setAcc_responses (s : State) (v : Narrow) : (s.setAcc v).responses = s.responses := rfl
@[simp] theorem State.setAcc_fuIssue (s : State) (v : Narrow) : (s.setAcc v).fuIssue = s.fuIssue := rfl
@[simp] theorem State.setAcc_fuOut (s : State) (v : Narrow) : (s.setAcc v).fuOut = s.fuOut := rfl

/-! ### `setKey` -/

@[simp] theorem State.setKey_acc (s : State) (r p1 p2 p3 p4 : Narrow) (m : BitVec 128) : (s.setKey r p1 p2 p3 p4 m).acc = s.acc := rfl
@[simp] theorem State.setKey_r (s : State) (r p1 p2 p3 p4 : Narrow) (m : BitVec 128) : (s.setKey r p1 p2 p3 p4 m).r = r := rfl
@[simp] theorem State.setKey_pow1 (s : State) (r p1 p2 p3 p4 : Narrow) (m : BitVec 128) : (s.setKey r p1 p2 p3 p4 m).pow1 = p1 := rfl
@[simp] theorem State.setKey_pow2 (s : State) (r p1 p2 p3 p4 : Narrow) (m : BitVec 128) : (s.setKey r p1 p2 p3 p4 m).pow2 = p2 := rfl
@[simp] theorem State.setKey_pow3 (s : State) (r p1 p2 p3 p4 : Narrow) (m : BitVec 128) : (s.setKey r p1 p2 p3 p4 m).pow3 = p3 := rfl
@[simp] theorem State.setKey_pow4 (s : State) (r p1 p2 p3 p4 : Narrow) (m : BitVec 128) : (s.setKey r p1 p2 p3 p4 m).pow4 = p4 := rfl
@[simp] theorem State.setKey_mask (s : State) (r p1 p2 p3 p4 : Narrow) (m : BitVec 128) : (s.setKey r p1 p2 p3 p4 m).mask = m := rfl
@[simp] theorem State.setKey_buf (s : State) (r p1 p2 p3 p4 : Narrow) (m : BitVec 128) : (s.setKey r p1 p2 p3 p4 m).buf = s.buf := rfl
@[simp] theorem State.setKey_buflen (s : State) (r p1 p2 p3 p4 : Narrow) (m : BitVec 128) : (s.setKey r p1 p2 p3 p4 m).buflen = s.buflen := rfl
@[simp] theorem State.setKey_phase (s : State) (r p1 p2 p3 p4 : Narrow) (m : BitVec 128) : (s.setKey r p1 p2 p3 p4 m).phase = s.phase := rfl
@[simp] theorem State.setKey_err (s : State) (r p1 p2 p3 p4 : Narrow) (m : BitVec 128) : (s.setKey r p1 p2 p3 p4 m).err = s.err := rfl
@[simp] theorem State.setKey_inbox (s : State) (r p1 p2 p3 p4 : Narrow) (m : BitVec 128) : (s.setKey r p1 p2 p3 p4 m).inbox = s.inbox := rfl
@[simp] theorem State.setKey_responses (s : State) (r p1 p2 p3 p4 : Narrow) (m : BitVec 128) : (s.setKey r p1 p2 p3 p4 m).responses = s.responses := rfl
@[simp] theorem State.setKey_fuIssue (s : State) (r p1 p2 p3 p4 : Narrow) (m : BitVec 128) : (s.setKey r p1 p2 p3 p4 m).fuIssue = s.fuIssue := rfl
@[simp] theorem State.setKey_fuOut (s : State) (r p1 p2 p3 p4 : Narrow) (m : BitVec 128) : (s.setKey r p1 p2 p3 p4 m).fuOut = s.fuOut := rfl

/-! ### `setBuf` -/

@[simp] theorem State.setBuf_acc (s : State) (m : List Host.Cell) (n : BitVec 6) : (s.setBuf m n).acc = s.acc := rfl
@[simp] theorem State.setBuf_r (s : State) (m : List Host.Cell) (n : BitVec 6) : (s.setBuf m n).r = s.r := rfl
@[simp] theorem State.setBuf_pow1 (s : State) (m : List Host.Cell) (n : BitVec 6) : (s.setBuf m n).pow1 = s.pow1 := rfl
@[simp] theorem State.setBuf_pow2 (s : State) (m : List Host.Cell) (n : BitVec 6) : (s.setBuf m n).pow2 = s.pow2 := rfl
@[simp] theorem State.setBuf_pow3 (s : State) (m : List Host.Cell) (n : BitVec 6) : (s.setBuf m n).pow3 = s.pow3 := rfl
@[simp] theorem State.setBuf_pow4 (s : State) (m : List Host.Cell) (n : BitVec 6) : (s.setBuf m n).pow4 = s.pow4 := rfl
@[simp] theorem State.setBuf_mask (s : State) (m : List Host.Cell) (n : BitVec 6) : (s.setBuf m n).mask = s.mask := rfl
@[simp] theorem State.setBuf_buf (s : State) (m : List Host.Cell) (n : BitVec 6) : (s.setBuf m n).buf = m := rfl
@[simp] theorem State.setBuf_buflen (s : State) (m : List Host.Cell) (n : BitVec 6) : (s.setBuf m n).buflen = n := rfl
@[simp] theorem State.setBuf_phase (s : State) (m : List Host.Cell) (n : BitVec 6) : (s.setBuf m n).phase = s.phase := rfl
@[simp] theorem State.setBuf_err (s : State) (m : List Host.Cell) (n : BitVec 6) : (s.setBuf m n).err = s.err := rfl
@[simp] theorem State.setBuf_inbox (s : State) (m : List Host.Cell) (n : BitVec 6) : (s.setBuf m n).inbox = s.inbox := rfl
@[simp] theorem State.setBuf_responses (s : State) (m : List Host.Cell) (n : BitVec 6) : (s.setBuf m n).responses = s.responses := rfl
@[simp] theorem State.setBuf_fuIssue (s : State) (m : List Host.Cell) (n : BitVec 6) : (s.setBuf m n).fuIssue = s.fuIssue := rfl
@[simp] theorem State.setBuf_fuOut (s : State) (m : List Host.Cell) (n : BitVec 6) : (s.setBuf m n).fuOut = s.fuOut := rfl

/-! ### `setPhase` -/

@[simp] theorem State.setPhase_acc (s : State) (v : Phase) : (s.setPhase v).acc = s.acc := rfl
@[simp] theorem State.setPhase_r (s : State) (v : Phase) : (s.setPhase v).r = s.r := rfl
@[simp] theorem State.setPhase_pow1 (s : State) (v : Phase) : (s.setPhase v).pow1 = s.pow1 := rfl
@[simp] theorem State.setPhase_pow2 (s : State) (v : Phase) : (s.setPhase v).pow2 = s.pow2 := rfl
@[simp] theorem State.setPhase_pow3 (s : State) (v : Phase) : (s.setPhase v).pow3 = s.pow3 := rfl
@[simp] theorem State.setPhase_pow4 (s : State) (v : Phase) : (s.setPhase v).pow4 = s.pow4 := rfl
@[simp] theorem State.setPhase_mask (s : State) (v : Phase) : (s.setPhase v).mask = s.mask := rfl
@[simp] theorem State.setPhase_buf (s : State) (v : Phase) : (s.setPhase v).buf = s.buf := rfl
@[simp] theorem State.setPhase_buflen (s : State) (v : Phase) : (s.setPhase v).buflen = s.buflen := rfl
@[simp] theorem State.setPhase_phase (s : State) (v : Phase) : (s.setPhase v).phase = v := rfl
@[simp] theorem State.setPhase_err (s : State) (v : Phase) : (s.setPhase v).err = s.err := rfl
@[simp] theorem State.setPhase_inbox (s : State) (v : Phase) : (s.setPhase v).inbox = s.inbox := rfl
@[simp] theorem State.setPhase_responses (s : State) (v : Phase) : (s.setPhase v).responses = s.responses := rfl
@[simp] theorem State.setPhase_fuIssue (s : State) (v : Phase) : (s.setPhase v).fuIssue = s.fuIssue := rfl
@[simp] theorem State.setPhase_fuOut (s : State) (v : Phase) : (s.setPhase v).fuOut = s.fuOut := rfl

/-! ### `setErr` -/

@[simp] theorem State.setErr_acc (s : State) (v : Bool) : (s.setErr v).acc = s.acc := rfl
@[simp] theorem State.setErr_r (s : State) (v : Bool) : (s.setErr v).r = s.r := rfl
@[simp] theorem State.setErr_pow1 (s : State) (v : Bool) : (s.setErr v).pow1 = s.pow1 := rfl
@[simp] theorem State.setErr_pow2 (s : State) (v : Bool) : (s.setErr v).pow2 = s.pow2 := rfl
@[simp] theorem State.setErr_pow3 (s : State) (v : Bool) : (s.setErr v).pow3 = s.pow3 := rfl
@[simp] theorem State.setErr_pow4 (s : State) (v : Bool) : (s.setErr v).pow4 = s.pow4 := rfl
@[simp] theorem State.setErr_mask (s : State) (v : Bool) : (s.setErr v).mask = s.mask := rfl
@[simp] theorem State.setErr_buf (s : State) (v : Bool) : (s.setErr v).buf = s.buf := rfl
@[simp] theorem State.setErr_buflen (s : State) (v : Bool) : (s.setErr v).buflen = s.buflen := rfl
@[simp] theorem State.setErr_phase (s : State) (v : Bool) : (s.setErr v).phase = s.phase := rfl
@[simp] theorem State.setErr_err (s : State) (v : Bool) : (s.setErr v).err = v := rfl
@[simp] theorem State.setErr_inbox (s : State) (v : Bool) : (s.setErr v).inbox = s.inbox := rfl
@[simp] theorem State.setErr_responses (s : State) (v : Bool) : (s.setErr v).responses = s.responses := rfl
@[simp] theorem State.setErr_fuIssue (s : State) (v : Bool) : (s.setErr v).fuIssue = s.fuIssue := rfl
@[simp] theorem State.setErr_fuOut (s : State) (v : Bool) : (s.setErr v).fuOut = s.fuOut := rfl

/-! ### `setInbox` -/

@[simp] theorem State.setInbox_acc (s : State) (v : List HostEvent) : (s.setInbox v).acc = s.acc := rfl
@[simp] theorem State.setInbox_r (s : State) (v : List HostEvent) : (s.setInbox v).r = s.r := rfl
@[simp] theorem State.setInbox_pow1 (s : State) (v : List HostEvent) : (s.setInbox v).pow1 = s.pow1 := rfl
@[simp] theorem State.setInbox_pow2 (s : State) (v : List HostEvent) : (s.setInbox v).pow2 = s.pow2 := rfl
@[simp] theorem State.setInbox_pow3 (s : State) (v : List HostEvent) : (s.setInbox v).pow3 = s.pow3 := rfl
@[simp] theorem State.setInbox_pow4 (s : State) (v : List HostEvent) : (s.setInbox v).pow4 = s.pow4 := rfl
@[simp] theorem State.setInbox_mask (s : State) (v : List HostEvent) : (s.setInbox v).mask = s.mask := rfl
@[simp] theorem State.setInbox_buf (s : State) (v : List HostEvent) : (s.setInbox v).buf = s.buf := rfl
@[simp] theorem State.setInbox_buflen (s : State) (v : List HostEvent) : (s.setInbox v).buflen = s.buflen := rfl
@[simp] theorem State.setInbox_phase (s : State) (v : List HostEvent) : (s.setInbox v).phase = s.phase := rfl
@[simp] theorem State.setInbox_err (s : State) (v : List HostEvent) : (s.setInbox v).err = s.err := rfl
@[simp] theorem State.setInbox_inbox (s : State) (v : List HostEvent) : (s.setInbox v).inbox = v := rfl
@[simp] theorem State.setInbox_responses (s : State) (v : List HostEvent) : (s.setInbox v).responses = s.responses := rfl
@[simp] theorem State.setInbox_fuIssue (s : State) (v : List HostEvent) : (s.setInbox v).fuIssue = s.fuIssue := rfl
@[simp] theorem State.setInbox_fuOut (s : State) (v : List HostEvent) : (s.setInbox v).fuOut = s.fuOut := rfl

/-! ### `pushResponse` -/

@[simp] theorem State.pushResponse_acc (s : State) (v : Response) : (s.pushResponse v).acc = s.acc := rfl
@[simp] theorem State.pushResponse_r (s : State) (v : Response) : (s.pushResponse v).r = s.r := rfl
@[simp] theorem State.pushResponse_pow1 (s : State) (v : Response) : (s.pushResponse v).pow1 = s.pow1 := rfl
@[simp] theorem State.pushResponse_pow2 (s : State) (v : Response) : (s.pushResponse v).pow2 = s.pow2 := rfl
@[simp] theorem State.pushResponse_pow3 (s : State) (v : Response) : (s.pushResponse v).pow3 = s.pow3 := rfl
@[simp] theorem State.pushResponse_pow4 (s : State) (v : Response) : (s.pushResponse v).pow4 = s.pow4 := rfl
@[simp] theorem State.pushResponse_mask (s : State) (v : Response) : (s.pushResponse v).mask = s.mask := rfl
@[simp] theorem State.pushResponse_buf (s : State) (v : Response) : (s.pushResponse v).buf = s.buf := rfl
@[simp] theorem State.pushResponse_buflen (s : State) (v : Response) : (s.pushResponse v).buflen = s.buflen := rfl
@[simp] theorem State.pushResponse_phase (s : State) (v : Response) : (s.pushResponse v).phase = s.phase := rfl
@[simp] theorem State.pushResponse_err (s : State) (v : Response) : (s.pushResponse v).err = s.err := rfl
@[simp] theorem State.pushResponse_inbox (s : State) (v : Response) : (s.pushResponse v).inbox = s.inbox := rfl
@[simp] theorem State.pushResponse_responses (s : State) (v : Response) : (s.pushResponse v).responses = s.responses ++ [v] := rfl
@[simp] theorem State.pushResponse_fuIssue (s : State) (v : Response) : (s.pushResponse v).fuIssue = s.fuIssue := rfl
@[simp] theorem State.pushResponse_fuOut (s : State) (v : Response) : (s.pushResponse v).fuOut = s.fuOut := rfl

/-! ### `setFuIssue` -/

@[simp] theorem State.setFuIssue_acc (s : State) (v : Option FuIssue) : (s.setFuIssue v).acc = s.acc := rfl
@[simp] theorem State.setFuIssue_r (s : State) (v : Option FuIssue) : (s.setFuIssue v).r = s.r := rfl
@[simp] theorem State.setFuIssue_pow1 (s : State) (v : Option FuIssue) : (s.setFuIssue v).pow1 = s.pow1 := rfl
@[simp] theorem State.setFuIssue_pow2 (s : State) (v : Option FuIssue) : (s.setFuIssue v).pow2 = s.pow2 := rfl
@[simp] theorem State.setFuIssue_pow3 (s : State) (v : Option FuIssue) : (s.setFuIssue v).pow3 = s.pow3 := rfl
@[simp] theorem State.setFuIssue_pow4 (s : State) (v : Option FuIssue) : (s.setFuIssue v).pow4 = s.pow4 := rfl
@[simp] theorem State.setFuIssue_mask (s : State) (v : Option FuIssue) : (s.setFuIssue v).mask = s.mask := rfl
@[simp] theorem State.setFuIssue_buf (s : State) (v : Option FuIssue) : (s.setFuIssue v).buf = s.buf := rfl
@[simp] theorem State.setFuIssue_buflen (s : State) (v : Option FuIssue) : (s.setFuIssue v).buflen = s.buflen := rfl
@[simp] theorem State.setFuIssue_phase (s : State) (v : Option FuIssue) : (s.setFuIssue v).phase = s.phase := rfl
@[simp] theorem State.setFuIssue_err (s : State) (v : Option FuIssue) : (s.setFuIssue v).err = s.err := rfl
@[simp] theorem State.setFuIssue_inbox (s : State) (v : Option FuIssue) : (s.setFuIssue v).inbox = s.inbox := rfl
@[simp] theorem State.setFuIssue_responses (s : State) (v : Option FuIssue) : (s.setFuIssue v).responses = s.responses := rfl
@[simp] theorem State.setFuIssue_fuIssue (s : State) (v : Option FuIssue) : (s.setFuIssue v).fuIssue = v := rfl
@[simp] theorem State.setFuIssue_fuOut (s : State) (v : Option FuIssue) : (s.setFuIssue v).fuOut = s.fuOut := rfl

/-! ### `setFuOut` -/

@[simp] theorem State.setFuOut_acc (s : State) (v : Wide) : (s.setFuOut v).acc = s.acc := rfl
@[simp] theorem State.setFuOut_r (s : State) (v : Wide) : (s.setFuOut v).r = s.r := rfl
@[simp] theorem State.setFuOut_pow1 (s : State) (v : Wide) : (s.setFuOut v).pow1 = s.pow1 := rfl
@[simp] theorem State.setFuOut_pow2 (s : State) (v : Wide) : (s.setFuOut v).pow2 = s.pow2 := rfl
@[simp] theorem State.setFuOut_pow3 (s : State) (v : Wide) : (s.setFuOut v).pow3 = s.pow3 := rfl
@[simp] theorem State.setFuOut_pow4 (s : State) (v : Wide) : (s.setFuOut v).pow4 = s.pow4 := rfl
@[simp] theorem State.setFuOut_mask (s : State) (v : Wide) : (s.setFuOut v).mask = s.mask := rfl
@[simp] theorem State.setFuOut_buf (s : State) (v : Wide) : (s.setFuOut v).buf = s.buf := rfl
@[simp] theorem State.setFuOut_buflen (s : State) (v : Wide) : (s.setFuOut v).buflen = s.buflen := rfl
@[simp] theorem State.setFuOut_phase (s : State) (v : Wide) : (s.setFuOut v).phase = s.phase := rfl
@[simp] theorem State.setFuOut_err (s : State) (v : Wide) : (s.setFuOut v).err = s.err := rfl
@[simp] theorem State.setFuOut_inbox (s : State) (v : Wide) : (s.setFuOut v).inbox = s.inbox := rfl
@[simp] theorem State.setFuOut_responses (s : State) (v : Wide) : (s.setFuOut v).responses = s.responses := rfl
@[simp] theorem State.setFuOut_fuIssue (s : State) (v : Wide) : (s.setFuOut v).fuIssue = s.fuIssue := rfl
@[simp] theorem State.setFuOut_fuOut (s : State) (v : Wide) : (s.setFuOut v).fuOut = v := rfl

/-! ### `bufEmpty` -/

@[simp] theorem State.bufEmpty_acc (s : State) : (s.bufEmpty).acc = s.acc := rfl
@[simp] theorem State.bufEmpty_r (s : State) : (s.bufEmpty).r = s.r := rfl
@[simp] theorem State.bufEmpty_pow1 (s : State) : (s.bufEmpty).pow1 = s.pow1 := rfl
@[simp] theorem State.bufEmpty_pow2 (s : State) : (s.bufEmpty).pow2 = s.pow2 := rfl
@[simp] theorem State.bufEmpty_pow3 (s : State) : (s.bufEmpty).pow3 = s.pow3 := rfl
@[simp] theorem State.bufEmpty_pow4 (s : State) : (s.bufEmpty).pow4 = s.pow4 := rfl
@[simp] theorem State.bufEmpty_mask (s : State) : (s.bufEmpty).mask = s.mask := rfl
@[simp] theorem State.bufEmpty_buf (s : State) : (s.bufEmpty).buf = [] := rfl
@[simp] theorem State.bufEmpty_buflen (s : State) : (s.bufEmpty).buflen = 0 := rfl
@[simp] theorem State.bufEmpty_phase (s : State) : (s.bufEmpty).phase = s.phase := rfl
@[simp] theorem State.bufEmpty_err (s : State) : (s.bufEmpty).err = s.err := rfl
@[simp] theorem State.bufEmpty_inbox (s : State) : (s.bufEmpty).inbox = s.inbox := rfl
@[simp] theorem State.bufEmpty_responses (s : State) : (s.bufEmpty).responses = s.responses := rfl
@[simp] theorem State.bufEmpty_fuIssue (s : State) : (s.bufEmpty).fuIssue = s.fuIssue := rfl
@[simp] theorem State.bufEmpty_fuOut (s : State) : (s.bufEmpty).fuOut = s.fuOut := rfl

/-! ### `respond` -/

@[simp] theorem respond_acc (st : Status) (p : List Byte) (s : State) : (respond st p s).acc = s.acc := rfl
@[simp] theorem respond_r (st : Status) (p : List Byte) (s : State) : (respond st p s).r = s.r := rfl
@[simp] theorem respond_pow1 (st : Status) (p : List Byte) (s : State) : (respond st p s).pow1 = s.pow1 := rfl
@[simp] theorem respond_pow2 (st : Status) (p : List Byte) (s : State) : (respond st p s).pow2 = s.pow2 := rfl
@[simp] theorem respond_pow3 (st : Status) (p : List Byte) (s : State) : (respond st p s).pow3 = s.pow3 := rfl
@[simp] theorem respond_pow4 (st : Status) (p : List Byte) (s : State) : (respond st p s).pow4 = s.pow4 := rfl
@[simp] theorem respond_mask (st : Status) (p : List Byte) (s : State) : (respond st p s).mask = s.mask := rfl
@[simp] theorem respond_buf (st : Status) (p : List Byte) (s : State) : (respond st p s).buf = s.buf := rfl
@[simp] theorem respond_buflen (st : Status) (p : List Byte) (s : State) : (respond st p s).buflen = s.buflen := rfl
@[simp] theorem respond_phase (st : Status) (p : List Byte) (s : State) : (respond st p s).phase = s.phase := rfl
@[simp] theorem respond_err (st : Status) (p : List Byte) (s : State) : (respond st p s).err = s.err := rfl
@[simp] theorem respond_inbox (st : Status) (p : List Byte) (s : State) : (respond st p s).inbox = s.inbox := rfl
@[simp] theorem respond_responses (st : Status) (p : List Byte) (s : State) : (respond st p s).responses = s.responses ++ [⟨responseHeader st s.phase s.err (BitVec.ofNat 8 p.length), p⟩] := rfl
@[simp] theorem respond_fuIssue (st : Status) (p : List Byte) (s : State) : (respond st p s).fuIssue = s.fuIssue := rfl
@[simp] theorem respond_fuOut (st : Status) (p : List Byte) (s : State) : (respond st p s).fuOut = s.fuOut := rfl

/-! ### `raiseError` -/

@[simp] theorem raiseError_acc (st : Status) (s : State) : (raiseError st s).acc = s.acc := rfl
@[simp] theorem raiseError_r (st : Status) (s : State) : (raiseError st s).r = s.r := rfl
@[simp] theorem raiseError_pow1 (st : Status) (s : State) : (raiseError st s).pow1 = s.pow1 := rfl
@[simp] theorem raiseError_pow2 (st : Status) (s : State) : (raiseError st s).pow2 = s.pow2 := rfl
@[simp] theorem raiseError_pow3 (st : Status) (s : State) : (raiseError st s).pow3 = s.pow3 := rfl
@[simp] theorem raiseError_pow4 (st : Status) (s : State) : (raiseError st s).pow4 = s.pow4 := rfl
@[simp] theorem raiseError_mask (st : Status) (s : State) : (raiseError st s).mask = s.mask := rfl
@[simp] theorem raiseError_buf (st : Status) (s : State) : (raiseError st s).buf = s.buf := rfl
@[simp] theorem raiseError_buflen (st : Status) (s : State) : (raiseError st s).buflen = s.buflen := rfl
@[simp] theorem raiseError_phase (st : Status) (s : State) : (raiseError st s).phase = s.phase := rfl
@[simp] theorem raiseError_err (st : Status) (s : State) : (raiseError st s).err = true := rfl
@[simp] theorem raiseError_inbox (st : Status) (s : State) : (raiseError st s).inbox = s.inbox := rfl
@[simp] theorem raiseError_responses (st : Status) (s : State) : (raiseError st s).responses = s.responses ++ [⟨responseHeader st s.phase true 0, []⟩] := rfl
@[simp] theorem raiseError_fuIssue (st : Status) (s : State) : (raiseError st s).fuIssue = s.fuIssue := rfl
@[simp] theorem raiseError_fuOut (st : Status) (s : State) : (raiseError st s).fuOut = s.fuOut := rfl

/-! ### `keyDerive` -/

@[simp] theorem keyDerive_acc (key : List Byte) (s : State) : (keyDerive key s).acc = s.acc := rfl
@[simp] theorem keyDerive_r (key : List Byte) (s : State) : (keyDerive key s).r = split (evalKey key) := rfl
@[simp] theorem keyDerive_pow1 (key : List Byte) (s : State) : (keyDerive key s).pow1 = split (evalKey key) := rfl
@[simp] theorem keyDerive_pow2 (key : List Byte) (s : State) :
    (keyDerive key s).pow2 =
      fieldMul (split (evalKey key)) (split (evalKey key)) := rfl
@[simp] theorem keyDerive_pow3 (key : List Byte) (s : State) :
    (keyDerive key s).pow3 =
      fieldMul (fieldMul (split (evalKey key)) (split (evalKey key))) (split (evalKey key)) := rfl
@[simp] theorem keyDerive_pow4 (key : List Byte) (s : State) :
    (keyDerive key s).pow4 =
      fieldMul (fieldMul (fieldMul (split (evalKey key)) (split (evalKey key))) (split (evalKey key))) (split (evalKey key)) := rfl
@[simp] theorem keyDerive_mask (key : List Byte) (s : State) :
    (keyDerive key s).mask =
      BitVec.ofNat 128 (maskKey key) := rfl
@[simp] theorem keyDerive_buf (key : List Byte) (s : State) : (keyDerive key s).buf = s.buf := rfl
@[simp] theorem keyDerive_buflen (key : List Byte) (s : State) : (keyDerive key s).buflen = s.buflen := rfl
@[simp] theorem keyDerive_phase (key : List Byte) (s : State) : (keyDerive key s).phase = s.phase := rfl
@[simp] theorem keyDerive_err (key : List Byte) (s : State) : (keyDerive key s).err = s.err := rfl
@[simp] theorem keyDerive_inbox (key : List Byte) (s : State) : (keyDerive key s).inbox = s.inbox := rfl
@[simp] theorem keyDerive_responses (key : List Byte) (s : State) : (keyDerive key s).responses = s.responses := rfl
@[simp] theorem keyDerive_fuIssue (key : List Byte) (s : State) : (keyDerive key s).fuIssue = s.fuIssue := rfl
@[simp] theorem keyDerive_fuOut (key : List Byte) (s : State) : (keyDerive key s).fuOut = s.fuOut := rfl

end Sys2Proof.Machine
end

