-- ==== Sys2Proof/Laws/Ops.lean ====
section
/-! SUPPORT. Sequencing, the buffer's laws, and for each shared operation one lemma that says everything it can do. -/

namespace Sys2Proof.Machine

/-! ### Sequencing -/

@[simp] theorem andThen_next {α β : Type} (a : α) (f : α → Res β) : andThen (.next a) f = f a := rfl
@[simp] theorem andThen_fault {α β : Type} (e : Fault) (f : α → Res β) : andThen (.fault e) f = .fault e := rfl
@[simp] theorem andThen_refused {α β : Type} (e : Refusal) (f : α → Res β) :
    andThen (.refused e) f = .refused e := rfl

/-- Inversion of a sequence: it answers a value exactly when its first part does and the rest does on that value. -/
theorem andThen_eq_next {α β : Type} {x : Res α} {f : α → Res β} {b : β} :
    andThen x f = .next b ↔ ∃ a, x = .next a ∧ f a = .next b := by
  cases x <;> simp [andThen]

theorem andThen_assoc {α β γ : Type} (x : Res α) (f : α → Res β) (g : β → Res γ) :
    andThen (andThen x f) g = andThen x fun a => andThen (f a) g := by
  cases x <;> rfl

/-- Everything `checked` can do: an error response for the first failing check, or the body (rule R87). -/
theorem checked_cases (lenOk phaseOk : Bool) (s : State) (body : Res State) :
    (lenOk = false ∧ checked lenOk phaseOk s body = .next (raiseError .usageLength s)) ∨
    (lenOk = true ∧ phaseOk = false ∧ checked lenOk phaseOk s body = .next (raiseError .usagePhase s)) ∨
    (lenOk = true ∧ phaseOk = true ∧ checked lenOk phaseOk s body = body) := by
  cases lenOk <;> cases phaseOk <;> simp [checked, firstFailure]

@[simp] theorem phasePermits_iff (p : Phase) : phasePermits p = true ↔ p = .accumulating := by
  cases p <;> simp [phasePermits]

/-! ### The buffer's cells: read after write, and the canonical form -/

/-- A byte read where it was written is the byte written. -/
theorem lookup_store_same (m : List Host.Cell) (a : Nat) (b : Byte) : lookup (store m a b) a = some b := by
  induction m with
  | nil => simp [store, lookup]
  | cons c m ih =>
    obtain ⟨k, v⟩ := c
    by_cases h1 : k = a
    · simp [store, lookup, h1]
    · by_cases h2 : a < k <;> simp [store, lookup, h1, h2, ih]

/-- A write leaves every other address alone. -/
theorem lookup_store_other (m : List Host.Cell) {a x : Nat} (b : Byte) (h : x ≠ a) :
    lookup (store m a b) x = lookup m x := by
  induction m with
  | nil => simp [store, lookup, h.symm]
  | cons c m ih =>
    obtain ⟨k, v⟩ := c
    by_cases h1 : k = a
    · subst h1; simp [store, lookup, h.symm]
    · by_cases h2 : a < k
      · simp [store, lookup, h1, h2, h.symm]
      · simp [store, lookup, h1, h2, ih]

/-- A write at an existing address keeps the cells rising. -/
theorem risingFrom_store {m : List Host.Cell} {lo a : Nat} (b : Byte) (hm : risingFrom lo m = true) (hlo : lo ≤ a)
    (ha : a < 56) : risingFrom lo (store m a b) = true := by
  induction m generalizing lo with
  | nil => simp [store, risingFrom, hlo, ha]
  | cons c m ih =>
    obtain ⟨k, v⟩ := c
    simp only [risingFrom, Config.unitBytes_eq, Bool.and_eq_true, decide_eq_true_eq] at hm
    obtain ⟨⟨h1, h2⟩, h3⟩ := hm
    by_cases e : k = a
    · subst e; simp [store, risingFrom, h1, h2, h3]
    · by_cases l : a < k
      · have : a + 1 ≤ k := l
        simp [store, risingFrom, e, l, hlo, ha, h2, h3, this]
      · have : k + 1 ≤ a := by omega
        simp [store, risingFrom, e, l, h1, h2, ih h3 this]

theorem wf_store {m : List Host.Cell} {a : Nat} (b : Byte) (hm : Memory.wf m = true) (ha : a < 56) :
    Memory.wf (store m a b) = true := risingFrom_store b hm (Nat.zero_le a) ha

/-- The empty buffer is in canonical form, and so is the buffer at reset. -/
theorem wf_nil : Memory.wf [] = true := rfl
theorem reset_wf : Memory.wf State.reset.buf = true := rfl

/-! ### Everything the buffer operations can do -/

/-- `memWrite`: it appends at `BUFLEN`, or it is refused. -/
theorem memWrite_eq_next {s t : State} {a : Nat} {b : Byte} :
    memWrite s a b = .next t ↔
      a < 56 ∧ a = s.buflen.toNat ∧ t = s.setBuf (store s.buf a b) (s.buflen + 1) := by
  by_cases h : a = s.buflen.toNat ∧ s.buflen.toNat < 56
  · obtain ⟨rfl, h2⟩ := h
    simp [memWrite, h2, eq_comm (a := t)]
  · have h' : ¬ (decide (a = s.buflen.toNat) && decide (s.buflen.toNat < Config.unitBytes)) = true := by
      rwa [Bool.and_eq_true, decide_eq_true_eq, decide_eq_true_eq]
    simp only [memWrite, if_neg h', reduceCtorEq, false_iff]
    rintro ⟨h1, h2, -⟩
    exact h ⟨h2, by omega⟩

/-- `memBytes`: the 1 to 14 bytes of an existing range below `BUFLEN`, or a stop; the state is only read. -/
theorem memBytes_eq_next {s : State} {a n : Nat} {bs : List Byte} :
    memBytes s a n = .next bs ↔
      (1 ≤ n ∧ n ≤ 14) ∧ a + n ≤ 56 ∧ a + n ≤ s.buflen.toNat ∧ readBytes s.buf a n = some bs := by
  by_cases h0 : 1 ≤ n ∧ n ≤ 14
  · have h1 : n ≠ 0 := by omega
    have h2 : ¬ 14 < n := by omega
    by_cases h3 : s.buflen.toNat < a + n
    · have : ¬ a + n ≤ s.buflen.toNat := by omega
      simp [memBytes, h1, h2, h3]
    · by_cases h4 : 56 < a + n
      · simp [memBytes, h1, h2, h3, h4]
      · have l1 : a + n ≤ 56 := by omega
        have l2 : a + n ≤ s.buflen.toNat := by omega
        cases h : readBytes s.buf a n <;> simp [memBytes, h0, h1, h2, h3, h4, h, l1, l2]
  · have : n = 0 ∨ 14 < n := by omega
    rcases this with h1 | h1 <;> simp [memBytes, h0, h1]

/-- `memRead`: the little-endian integer of those bytes, or a stop. -/
theorem memRead_eq_next {s : State} {a n v : Nat} :
    memRead s a n = .next v ↔ ∃ bs, memBytes s a n = .next bs ∧ v = ofLE bs := by
  simp [memRead, andThen_eq_next, eq_comm (a := v)]

/-- Every memory operation keeps the canonical form: the append does, emptying does, and nothing else writes. -/
theorem memWrite_wf {s t : State} {a : Nat} {b : Byte} (h : memWrite s a b = .next t)
    (hm : Memory.wf s.buf = true) : Memory.wf t.buf = true := by
  obtain ⟨ha, -, rfl⟩ := memWrite_eq_next.1 h
  exact wf_store b hm ha

theorem bufEmpty_wf (s : State) : Memory.wf s.bufEmpty.buf = true := rfl

/-- `padBlock`: the split padded value of an existing block of 1 to 14 bytes, or a stop (rule R132). -/
theorem padBlock_eq_next {s : State} {a n : Nat} {m : Narrow} :
    padBlock s a n = .next m ↔
      (1 ≤ n ∧ n ≤ 14) ∧ ∃ bs, memBytes s a n = .next bs ∧ m = split (paddedValue bs) := by
  by_cases h : 1 ≤ n ∧ n ≤ 14
  · have h0 : n ≠ 0 := by omega
    have h1 : ¬ 14 < n := by omega
    simp [padBlock, h, h0, h1, andThen_eq_next, eq_comm (a := m)]
  · have : n = 0 ∨ 14 < n := by omega
    rcases this with h0 | h0 <;> simp [padBlock, h, h0]

/-- `blockFold` writes `ACC` and nothing else, or stops (rule R133). -/
theorem blockFold_eq_next {s t : State} {a n : Nat} :
    blockFold s a n = .next t ↔
      ∃ m, padBlock s a n = .next m ∧ t = s.setAcc (fieldMul (carriedSum s.acc m) s.r) := by
  simp [blockFold, andThen_eq_next, eq_comm (a := t)]

/-- `batchFold` writes `ACC` and nothing else, or stops (rule R151). -/
theorem batchFold_eq_next {s t : State} :
    batchFold s = .next t ↔
      ∃ m1 m2 m3 m4, padBlock s 0 14 = .next m1 ∧ padBlock s 14 14 = .next m2 ∧ padBlock s 28 14 = .next m3 ∧
        padBlock s 42 14 = .next m4 ∧ t = s.setAcc (batchValue s m1 m2 m3 m4) := by
  simp only [batchFold, andThen_eq_next, Host.Outcome.next.injEq]
  constructor
  · rintro ⟨m1, h1, m2, h2, m3, h3, m4, h4, rfl⟩; exact ⟨m1, m2, m3, m4, h1, h2, h3, h4, rfl⟩
  · rintro ⟨m1, m2, m3, m4, h1, h2, h3, h4, rfl⟩; exact ⟨m1, h1, m2, h2, m3, h3, m4, h4, rfl⟩

/-- `absorbByte` writes only `ACC`, `BUF` and `BUFLEN`, or stops (rules R43, R134). -/
theorem absorbByte_frame {s t : State} {b : Byte} (h : absorbByte s b = .next t) :
    t = { s with acc := t.acc, buf := t.buf, buflen := t.buflen } := by
  simp only [absorbByte, andThen_eq_next] at h
  obtain ⟨s1, hw, h⟩ := h
  obtain ⟨-, -, rfl⟩ := memWrite_eq_next.1 hw
  split at h
  · simp only [andThen_eq_next, Host.Outcome.next.injEq] at h
    obtain ⟨s2, hb, rfl⟩ := h
    obtain ⟨m1, m2, m3, m4, -, -, -, -, rfl⟩ := batchFold_eq_next.1 hb
    rfl
  · cases h; rfl

/-- `absorb` writes only `ACC`, `BUF` and `BUFLEN`, or stops (rules R43, R134). -/
theorem absorb_frame {s t : State} {bs : List Byte} (h : absorb s bs = .next t) :
    t = { s with acc := t.acc, buf := t.buf, buflen := t.buflen } := by
  induction bs generalizing s with
  | nil => simp only [absorb, Host.Outcome.next.injEq] at h; subst h; rfl
  | cons b bs ih =>
    simp only [absorb, andThen_eq_next] at h
    obtain ⟨s1, h1, h2⟩ := h
    rw [ih h2, absorbByte_frame h1]

/-- The loop of UPDATE over a concatenation is the loop over its parts, one after the other (rule R136). -/
theorem absorb_append (s : State) (a b : List Byte) :
    absorb s (a ++ b) = andThen (absorb s a) fun t => absorb t b := by
  induction a generalizing s with
  | nil => rfl
  | cons x a ih => simp only [List.cons_append, absorb, andThen_assoc, ih]

/-- The whole-block loop of TAIL writes only `ACC`, or stops. -/
theorem foldWhole_frame {s t : State} {j k : Nat} (h : foldWhole s j k = .next t) : t = s.setAcc t.acc := by
  induction k generalizing s j with
  | zero => simp only [foldWhole, Host.Outcome.next.injEq] at h; subst h; rfl
  | succ k ih =>
    simp only [foldWhole, andThen_eq_next] at h
    obtain ⟨s1, h1, h2⟩ := h
    obtain ⟨m, -, rfl⟩ := blockFold_eq_next.1 h1
    rw [ih h2]; rfl

/-- TAIL writes only `ACC` and empties the buffer, or stops (rule R160). -/
theorem tail_frame {s t : State} (h : tail s = .next t) : t = (s.setAcc t.acc).bufEmpty := by
  simp only [tail, andThen_eq_next, Host.Outcome.next.injEq] at h
  obtain ⟨s1, h1, s2, h2, rfl⟩ := h
  have e1 := foldWhole_frame h1
  have e2 : s2 = s1.setAcc s2.acc := by
    split at h2
    · cases h2; rfl
    · obtain ⟨m, -, rfl⟩ := blockFold_eq_next.1 h2; rfl
  rw [e2, e1]; rfl

end Sys2Proof.Machine
end

