-- ==== Sys2Proof/Laws/Buffer.lean ====
section
/-! SUPPORT. The buffer as a byte string: what the cell operations do to cells that hold one (rules R26, R53, R54). -/

namespace Sys2Proof.Machine

theorem cellsFrom_append (k : Nat) (as bs : List Byte) :
    cellsFrom k (as ++ bs) = cellsFrom k as ++ cellsFrom (k + as.length) bs := by
  induction as generalizing k with
  | nil => rfl
  | cons a as ih =>
    simp only [List.cons_append, cellsFrom, ih, List.length_cons]
    rw [show k + 1 + as.length = k + (as.length + 1) by omega]

@[simp] theorem cellsFrom_bytes (k : Nat) (bs : List Byte) : (cellsFrom k bs).map Prod.snd = bs := by
  induction bs generalizing k with
  | nil => rfl
  | cons b bs ih => simp [cellsFrom, ih]

/-- No address below the first holds a value. -/
theorem lookup_cellsFrom_below {k a : Nat} (bs : List Byte) (h : a < k) : lookup (cellsFrom k bs) a = none := by
  induction bs generalizing k with
  | nil => rfl
  | cons b bs ih =>
    have : k ≠ a := by omega
    simp [cellsFrom, lookup, this, ih (show a < k + 1 by omega)]

/-- The byte at the `i`-th address from the first is the `i`-th byte, and none beyond the last. -/
@[simp] theorem lookup_cellsFrom (k i : Nat) (bs : List Byte) : lookup (cellsFrom k bs) (k + i) = bs[i]? := by
  induction bs generalizing k i with
  | nil => simp [cellsFrom, lookup]
  | cons b bs ih =>
    cases i with
    | zero => simp [cellsFrom, lookup]
    | succ i =>
      have h : k ≠ k + (i + 1) := by omega
      simp only [cellsFrom, lookup, if_neg h, List.getElem?_cons_succ]
      rw [← ih (k + 1) i]; congr 1; omega

/-- A byte stored at the next free address extends the string (rule R54). -/
@[simp] theorem store_cellsFrom (k : Nat) (bs : List Byte) (b : Byte) :
    store (cellsFrom k bs) (k + bs.length) b = cellsFrom k (bs ++ [b]) := by
  induction bs generalizing k with
  | nil => rfl
  | cons x bs ih =>
    have h1 : k ≠ k + (bs.length + 1) := by omega
    have h2 : ¬ k + (bs.length + 1) < k := by omega
    simp only [cellsFrom, List.length_cons, store, if_neg h1, if_neg h2, List.cons_append]
    rw [← ih (k + 1)]; congr 2; omega

/-- A read inside the string gives its bytes (rule R53). -/
theorem readBytes_cellsFrom (k a n : Nat) (bs : List Byte) (h : a + n ≤ bs.length) :
    readBytes (cellsFrom k bs) (k + a) n = some ((bs.drop a).take n) := by
  induction n generalizing a with
  | zero => simp [readBytes]
  | succ n ih =>
    have ha : a < bs.length := by omega
    rw [readBytes, lookup_cellsFrom, show k + a + 1 = k + (a + 1) by omega, ih (a + 1) (by omega),
      List.getElem?_eq_getElem ha, List.drop_eq_getElem_cons ha, List.take_succ_cons]

/-- The cells of a string that fits the buffer are in canonical form. -/
theorem risingFrom_cellsFrom (k : Nat) (bs : List Byte) (h : k + bs.length ≤ 56) :
    risingFrom k (cellsFrom k bs) = true := by
  induction bs generalizing k with
  | nil => rfl
  | cons b bs ih =>
    simp only [List.length_cons] at h
    have hk : k < 56 := by omega
    simp [cellsFrom, risingFrom, ih (k + 1) (by omega), hk]

/-- A block read where the buffer holds a string (rule R53). -/
theorem Holds.memBytes_eq {s : State} {bs : List Byte} (h : s.Holds bs) {a n : Nat} (hn : 1 ≤ n ∧ n ≤ 14)
    (h1 : a + n ≤ bs.length) (h2 : a + n ≤ 56) : memBytes s a n = .next ((bs.drop a).take n) := by
  refine memBytes_eq_next.2 ⟨hn, h2, by rw [h.2]; exact h1, ?_⟩
  have := readBytes_cellsFrom 0 a n bs h1
  rwa [Nat.zero_add, ← h.1] at this

/-- An append where the buffer holds a string of at most 55 bytes (rule R54). -/
theorem Holds.memWrite_eq {s : State} {bs : List Byte} (h : s.Holds bs) (hl : bs.length ≤ 55) (b : Byte) :
    memWrite s bs.length b = .next (s.setBuf (cellsFrom 0 (bs ++ [b])) (s.buflen + 1)) := by
  refine memWrite_eq_next.2 ⟨by omega, h.2.symm, ?_⟩
  have := store_cellsFrom 0 bs b
  rw [Nat.zero_add, ← h.1] at this
  rw [this]

/-- After that append the buffer holds the longer string. -/
theorem Holds.append {s : State} {bs : List Byte} (h : s.Holds bs) (hl : bs.length ≤ 55) (b : Byte) :
    (s.setBuf (cellsFrom 0 (bs ++ [b])) (s.buflen + 1)).Holds (bs ++ [b]) := by
  refine ⟨rfl, ?_⟩
  have h2 := h.2
  simp only [State.setBuf_buflen, BitVec.toNat_add, List.length_append, List.length_singleton]
  have h1 : (1 : BitVec 6).toNat = 1 := rfl
  omega

end Sys2Proof.Machine
end

