-- ==== Sys2Proof/Laws/Encoding.lean ====
section
/-! SUPPORT. The command header as a number, its fields, and narrow pairs on the lanes: what an encoding keeps. -/

namespace Sys2Proof

/-- `LEN` has 24 bits (rule R71). -/
@[simp] theorem lenFits_iff (payload : List Byte) : lenFits payload = true ↔ payload.length < 16777216 := by
  simp only [lenFits, decide_eq_true_eq]; exact Iff.rfl

/-- The opcodes of rule R73 as numbers. -/
theorem opcode_cases (op : BitVec 8) :
    (op = opInit ↔ op.toNat = 1) ∧ (op = opUpdate ↔ op.toNat = 2) ∧
    (op = opFinal ↔ op.toNat = 3) ∧ (op = opVerify ↔ op.toNat = 4) := by
  simp only [← BitVec.toNat_inj]
  exact ⟨Iff.rfl, Iff.rfl, Iff.rfl, Iff.rfl⟩

/-- `CH` as a number: `OPCODE` in bits 7:0, `LEN` in bits 31:8 (rule R71). -/
theorem commandHeader_toNat (op : BitVec 8) (len : BitVec 24) :
    (commandHeader op len).toNat = op.toNat + 256 * len.toNat := by
  have h : (commandHeader op len).toNat = len.toNat <<< 8 ||| op.toNat := BitVec.toNat_append len op
  rw [h, Nat.shiftLeft_eq, Nat.mul_comm, ← Nat.two_pow_add_eq_or_of_lt op.isLt]; omega

/-- `OPCODE` as a number (rule R71). -/
theorem opcodeOf_toNat (ch : Header) : (opcodeOf ch).toNat = ch.toNat % 256 := by simp [opcodeOf]

/-- `LEN` as a number (rule R71). -/
theorem lenOf_toNat (ch : Header) : (lenOf ch).toNat = ch.toNat / 256 := by
  have := ch.isLt
  simp [lenOf, Nat.shiftRight_eq_div_pow]; omega

/-- A header has the opcode it was made with. -/
@[simp] theorem opcodeOf_commandHeader (op : BitVec 8) (len : BitVec 24) : opcodeOf (commandHeader op len) = op := by
  apply BitVec.eq_of_toNat_eq; rw [opcodeOf_toNat, commandHeader_toNat]; omega

/-- A header has the `LEN` it was made with. -/
@[simp] theorem lenOf_commandHeader (op : BitVec 8) (len : BitVec 24) : lenOf (commandHeader op len) = len := by
  apply BitVec.eq_of_toNat_eq; rw [lenOf_toNat, commandHeader_toNat]; omega

/-- A header is its two fields: the format leaves no other bit (rule R71). -/
@[simp] theorem commandHeader_eta (ch : Header) : commandHeader (opcodeOf ch) (lenOf ch) = ch := by
  apply BitVec.eq_of_toNat_eq; rw [commandHeader_toNat, opcodeOf_toNat, lenOf_toNat]; omega

/-- Putting a narrow pair on the lanes loses nothing. -/
@[simp] theorem Narrow.narrow_widen_eq (a : Narrow) : a.widen.narrow = a := by
  obtain ⟨l0, l1⟩ := a
  simp only [Narrow.widen, Wide.narrow, Narrow.mk.injEq]
  constructor <;> (apply BitVec.eq_of_toNat_eq; simp)

/-- A narrow pair on the lanes is narrow. -/
@[simp] theorem Narrow.widen_isNarrow (a : Narrow) : a.widen.isNarrow = true := by
  have := a.l0.isLt; have := a.l1.isLt
  simp [Wide.isNarrow, Narrow.widen]; omega

/-- A lane pair that is narrow loses nothing when it is delivered narrow. -/
theorem Wide.widen_narrow {a : Wide} (h : a.isNarrow = true) : a.narrow.widen = a := by
  obtain ⟨d0, d1⟩ := a
  simp [Wide.isNarrow] at h
  simp only [Narrow.widen, Wide.narrow, Wide.mk.injEq]
  constructor <;> (apply BitVec.eq_of_toNat_eq; simp; omega)

end Sys2Proof
end

