-- ==== Sys2Proof/Laws/PerInstr.lean ====
section
/-! SUPPORT. A statement about every instruction as syntax, one lemma per constructor. -/

namespace Sys2Proof.Laws.WireLength

/-- The payload bytes of an instruction; a field-unit operation has none. -/
def payloadLength : Instr → Nat
  | .init payload => payload.length
  | .update payload => payload.length
  | .final payload => payload.length
  | .verify payload => payload.length
  | .fadd _ _ => 0
  | .fcarry _ => 0
  | .fmul _ _ => 0
  | .freduce _ => 0

/-- On the wire a command is 4 bytes and its payload (rule R83); a field-unit operation has no wire bytes (rule R79). -/
def Statement (i : Instr) : Prop :=
  (encode i).wire.length = payloadLength i + 4 ∨ ((encode i).wire = [] ∧ payloadLength i = 0)

theorem init (payload : List Byte) : Statement (.init payload) := by
  left; simp [encode, encodeCommand, Encoding.wire, wireBytes, toLE, payloadLength]

theorem update (payload : List Byte) : Statement (.update payload) := by
  left; simp [encode, encodeCommand, Encoding.wire, wireBytes, toLE, payloadLength]

theorem final (payload : List Byte) : Statement (.final payload) := by
  left; simp [encode, encodeCommand, Encoding.wire, wireBytes, toLE, payloadLength]

theorem verify (payload : List Byte) : Statement (.verify payload) := by
  left; simp [encode, encodeCommand, Encoding.wire, wireBytes, toLE, payloadLength]

theorem fadd (a b : Wide) : Statement (.fadd a b) := Or.inr ⟨rfl, rfl⟩

theorem fcarry (a : Wide) : Statement (.fcarry a) := Or.inr ⟨rfl, rfl⟩

theorem fmul (a b : Narrow) : Statement (.fmul a b) := Or.inr ⟨rfl, rfl⟩

theorem freduce (a : Narrow) : Statement (.freduce a) := Or.inr ⟨rfl, rfl⟩

end Sys2Proof.Laws.WireLength
end

