-- ==== Sys2Proof/Laws/Sequencer.lean ====
section
/-! SUPPORT. What each part of a command's series does: the parts of `commandSeries` against the routines `exec` calls. -/

namespace Sys2Proof.Machine

/-- Two continuations that agree on what the first part answers give the same sequence. -/
theorem andThen_congr {α β : Type} (x : Res α) (f g : α → Res β) (h : ∀ a, x = .next a → f a = g a) :
    andThen x f = andThen x g := by
  cases x with
  | next a => exact h a rfl
  | fault e => rfl
  | refused e => rfl

/-- A series' outcome with the lanes forgotten, as `runSeries` answers it. -/
def strip (r : Res (State × Scratch)) : Res State := andThen r fun q => .next q.1

/-- Forgetting the lanes passes through a sequence. -/
theorem strip_andThen {α : Type} (r : Res α) (f : α → Res (State × Scratch)) :
    strip (andThen r f) = andThen r fun a => strip (f a) := andThen_assoc _ _ _

/-- The series of BATCHFOLD does what BATCHFOLD does, then what follows it (rule R151). -/
theorem strip_batchSeries (p : List Byte) (rest : List SeqOp) (s : State) (x : Scratch) (k : State → Res State)
    (hk : ∀ t y, strip (performAll p rest (State.bufEmpty t) y) = k t.bufEmpty) :
    strip (performAll p (batchSeries ++ rest) s x) = andThen (batchFold s) fun s2 => k s2.bufEmpty := by
  simp only [batchSeries, List.cons_append, List.nil_append, performAll, perform, writePlace, readPlace,
    andThen_next, strip_andThen, batchFold, andThen_assoc, hk, Narrow.narrow_widen_eq]
  refine andThen_congr _ _ _ fun m1 h1 => ?_
  refine andThen_congr _ _ _ fun m2 h2 => ?_
  refine andThen_congr _ _ _ fun m3 h3 => ?_
  refine andThen_congr _ _ _ fun m4 h4 => ?_
  rfl

/-- The series of BLOCKFOLD does what BLOCKFOLD does, then what follows it (rule R133). -/
theorem strip_blockSeries (p : List Byte) (rest : List SeqOp) (a n : Nat) (s : State) (x : Scratch) (k : State → Res State)
    (hk : ∀ t y, strip (performAll p rest t y) = k t) :
    strip (performAll p (blockSeries a n ++ rest) s x) = andThen (blockFold s a n) k := by
  simp only [blockSeries, List.cons_append, List.nil_append, performAll, perform, writePlace, readPlace,
    andThen_next, strip_andThen, blockFold, andThen_assoc, hk, Narrow.narrow_widen_eq]
  rfl

/-- The series of TAIL's whole blocks does what their loop does (rule R160). -/
theorem strip_wholeSeries (p : List Byte) (rest : List SeqOp) (c j : Nat) (s : State) (x : Scratch) (k : State → Res State)
    (hk : ∀ t y, strip (performAll p rest t y) = k t) :
    strip (performAll p (wholeSeries j c ++ rest) s x) = andThen (foldWhole s j c) k := by
  induction c generalizing j s x with
  | zero => exact hk s x
  | succ c ih =>
    simp only [wholeSeries, foldWhole, List.append_assoc, andThen_assoc]
    exact strip_blockSeries p _ _ _ s x _ fun t y => ih (j+1) t y

/-- The series of TAGGEN does what TAIL does and leaves the tag bytes at hand (rule R161). -/
theorem strip_tagSeries (p : List Byte) (rest : List SeqOp) (s : State) (x : Scratch) (k : State → Res State)
    (hk : ∀ t y, y.tag = tagBytesOf t → strip (performAll p rest t y) = k t) :
    strip (performAll p (tagSeries s.buflen.toNat ++ rest) s x) = andThen (tail s) k := by
  have hend : ∀ t y,
      strip (performAll p ([.bufEmpty, .freduce .acc .lane1, .addMask .lane1] ++ rest) t y) = k t.bufEmpty := by
    intro t y
    simp only [List.cons_append, List.nil_append, performAll, perform, writePlace, readPlace, andThen_next,
      Narrow.narrow_widen_eq]
    exact hk _ _ rfl
  simp only [tagSeries, List.append_assoc, tail, andThen_assoc]
  refine strip_wholeSeries p _ _ _ s x _ fun t y => ?_
  split
  · simp only [List.nil_append, andThen_next]; exact hend t y
  · refine (strip_blockSeries p _ _ _ t y _ hend).trans ?_
    rfl

/-- One append of UPDATE's series (rule R134). -/
theorem strip_bufWrite (p : List Byte) (rest : List SeqOp) (n m : Nat) (s : State) (x : Scratch) :
    strip (performAll p (SeqOp.bufWrite n m :: rest) s x) =
      andThen (memWrite s n (p.getD m 0)) fun t => strip (performAll p rest t x) := by
  simp only [performAll, perform, andThen_assoc, andThen_next, strip_andThen]

end Sys2Proof.Machine
end

