-- ==== Sys2Proof/Laws/Step.lean ====
section
/-! SUPPORT. Everything an instruction can do, and everything a step can do, said once: the inversion lemmas the
invariants and frames are derived from. -/

namespace Sys2Proof.Machine

/-- Everything `exec` can answer a next state with: an error response, or the instruction's body. A field-unit operation
writes its result port only. -/
theorem exec_eq_next (i : Instr) (s t : State) (h : exec i s = .next t) :
    match i with
    | .init p => (p.length ≠ 32 ∧ t = raiseError .usageLength s) ∨ (p.length = 32 ∧ t = initBody p s)
    | .update p =>
        (s.phase ≠ .accumulating ∧ t = raiseError .usagePhase s) ∨
        (s.phase = .accumulating ∧ ∃ u, absorb s p = .next u ∧ t = respond .ok [] u)
    | .final p => (p.length ≠ 0 ∧ t = raiseError .usageLength s) ∨
        (p.length = 0 ∧ s.phase ≠ .accumulating ∧ t = raiseError .usagePhase s) ∨
        (p.length = 0 ∧ s.phase = .accumulating ∧ ∃ u, tail s = .next u ∧
          t = respond .ok (tagBytesOf u) (u.setPhase .finalized))
    | .verify p => (p.length ≠ 16 ∧ t = raiseError .usageLength s) ∨
        (p.length = 16 ∧ s.phase ≠ .accumulating ∧ t = raiseError .usagePhase s) ∨
        (p.length = 16 ∧ s.phase = .accumulating ∧ ∃ u, tail s = .next u ∧
          t = respond .ok [cteq (tagBytesOf u) p] (u.setPhase .finalized))
    | _ => t = s.setFuOut t.fuOut := by
  cases i with
  | init p =>
    simp only [exec, execInit] at h
    rcases checked_cases (p.length == lenInit) true s (.next (initBody p s)) with
      ⟨a, b⟩ | ⟨a, b, c⟩ | ⟨a, b, c⟩
    · rw [b] at h; cases h; left; exact ⟨by simpa [lenInit] using a, rfl⟩
    · cases b
    · rw [c] at h; cases h; right; exact ⟨by simpa [lenInit] using a, rfl⟩
  | update p =>
    simp only [exec, execUpdate] at h
    rcases checked_cases true (phasePermits s.phase) s (andThen (absorb s p) fun t => .next (respond .ok [] t)) with
      ⟨a, b⟩ | ⟨a, b, c⟩ | ⟨a, b, c⟩
    · cases a
    · rw [c] at h; cases h; left; exact ⟨by intro hh; simp [hh, phasePermits] at b, rfl⟩
    · rw [c] at h; right; simp only [andThen_eq_next, Host.Outcome.next.injEq] at h
      exact ⟨by simpa using b, by obtain ⟨u, h1, h2⟩ := h; exact ⟨u, h1, h2.symm⟩⟩
  | final p =>
    simp only [exec, execFinal, finalBody] at h
    rcases checked_cases (p.length == lenFinal) (phasePermits s.phase) s (finalBody s) with
      ⟨a, b⟩ | ⟨a, b, c⟩ | ⟨a, b, c⟩
    · rw [← finalBody, b] at h; cases h; left; exact ⟨by simpa [lenFinal] using a, rfl⟩
    · rw [← finalBody, c] at h; cases h; right; left
      exact ⟨by simpa [lenFinal] using a, by intro hh; simp [hh, phasePermits] at b, rfl⟩
    · rw [← finalBody, c, finalBody] at h; right; right
      simp only [andThen_eq_next, Host.Outcome.next.injEq] at h
      exact ⟨by simpa [lenFinal] using a, by simpa using b, by obtain ⟨u, h1, h2⟩ := h; exact ⟨u, h1, h2.symm⟩⟩
  | verify p =>
    simp only [exec, execVerify, verifyBody] at h
    rcases checked_cases (p.length == lenVerify) (phasePermits s.phase) s (verifyBody p s) with
      ⟨a, b⟩ | ⟨a, b, c⟩ | ⟨a, b, c⟩
    · rw [← verifyBody, b] at h; cases h; left; exact ⟨by simpa [lenVerify] using a, rfl⟩
    · rw [← verifyBody, c] at h; cases h; right; left
      exact ⟨by simpa [lenVerify] using a, by intro hh; simp [hh, phasePermits] at b, rfl⟩
    · rw [← verifyBody, c, verifyBody] at h; right; right
      simp only [andThen_eq_next, Host.Outcome.next.injEq] at h
      exact ⟨by simpa [lenVerify] using a, by simpa using b, by obtain ⟨u, h1, h2⟩ := h; exact ⟨u, h1, h2.symm⟩⟩
  | fadd a b => simp only [exec, execFadd, Host.Outcome.next.injEq] at h; subst h; rfl
  | fcarry a => simp only [exec, execFcarry, Host.Outcome.next.injEq] at h; subst h; rfl
  | fmul a b => simp only [exec, execFmul, Host.Outcome.next.injEq] at h; subst h; rfl
  | freduce a => simp only [exec, execFreduce, Host.Outcome.next.injEq] at h; subst h; rfl

/-- Everything `step` can answer a next state with: a field-unit issue run, nothing to take, a Reset, a command run, or an
illegal opcode. -/
theorem step_eq_next (s t : State) (h : step s = .next t) :
   (∃ f i, s.fuIssue = some f ∧ decode (.fieldUnit f) = .ok i ∧ exec i (s.setFuIssue none) = .next t) ∨
   (s.fuIssue = none ∧ s.inbox = [] ∧ t = s) ∨
   (∃ later, s.fuIssue = none ∧ s.inbox = .reset :: later ∧ t = applyReset s later) ∨
   (∃ ch p later i, s.fuIssue = none ∧ s.inbox = .command ch p :: later ∧ decode (.command ch p) = .ok i ∧
      exec i (s.setInbox later) = .next t) ∨
   (∃ ch p later, s.fuIssue = none ∧ s.inbox = .command ch p :: later ∧
      decode (.command ch p) = .error .illegalOpcode ∧ t = raiseError .illegalOpcode (s.setInbox later)) := by
  unfold step fetch at h
  cases hf : s.fuIssue with
  | some f =>
    left
    simp only [hf, fetchIssue] at h
    cases hd : decode (.fieldUnit f) with
    | ok i => simp only [hd] at h; exact ⟨f, i, rfl, hd, h⟩
    | error e => simp [hd] at h
  | none =>
    right
    simp only [hf] at h
    cases hb : s.inbox with
    | nil => simp [hb] at h; left; exact ⟨rfl, rfl, h.symm⟩
    | cons e later =>
      right
      simp only [hb] at h
      cases e with
      | reset => simp [fetchEvent] at h; left; exact ⟨later, rfl, rfl, h.symm⟩
      | command ch p =>
        right
        simp only [fetchEvent] at h
        cases hd : decode (.command ch p) with
        | ok i => simp only [hd] at h; left; exact ⟨ch, p, later, i, rfl, rfl, hd, h⟩
        | error e =>
          cases e <;> simp [hd] at h
          right; exact ⟨ch, p, later, rfl, rfl, hd, h.symm⟩

end Sys2Proof.Machine
end

