-- ==== Sys2Proof/Machine/TraceText.lean ====
section
/-! DEFINITION. The trace syntax of rule R84: one line per host event and one per response. Nothing here is called
by `step`. -/

namespace Sys2Proof.Machine

/-- One hexadecimal digit. -/
def hexDigit (n : Nat) : Char := if n % 16 < 10 then Char.ofNat (48 + n % 16) else Char.ofNat (55 + n % 16)

/-- A byte as two hexadecimal digits. -/
def hexByte (b : Byte) : List Char := [hexDigit (b.toNat / 16), hexDigit b.toNat]

/-- Bytes as hex digit pairs in index order (rule R84). -/
def hexBytes (bs : List Byte) : List Char := bs.flatMap hexByte

/-- The host event of `RAW <opcode> <payload>`: any header, with the payload's length as its `LEN` (rule R84). -/
def rawEvent (opcode : BitVec 8) (payload : List Byte) : HostEvent :=
  .command (commandHeader opcode (BitVec.ofNat 24 payload.length)) payload

/-- The line of a host event (rule R84): the mnemonic form where opcode and `LEN` are legal, else `RAW`. Names are padded
to the column the rule's form shows, four spaces after `RAW` (the programs of 95_test_vectors.md write one), and no
space stands after a name or opcode with nothing after it (DESIGN CHOICE, log entry 25). -/
def eventLine : HostEvent → List Char
  | .reset => ['R', 'E', 'S', 'E', 'T']
  | .command ch payload =>
    let op := opcodeOf ch
    if op = opInit ∧ payload.length = lenInit then ['I', 'N', 'I', 'T', ' ', ' ', ' '] ++ hexBytes payload
    else if op = opUpdate ∧ payload.length = 0 then ['U', 'P', 'D', 'A', 'T', 'E']
    else if op = opUpdate then ['U', 'P', 'D', 'A', 'T', 'E', ' '] ++ hexBytes payload
    else if op = opFinal ∧ payload.length = lenFinal then ['F', 'I', 'N', 'A', 'L']
    else if op = opVerify ∧ payload.length = lenVerify then ['V', 'E', 'R', 'I', 'F', 'Y', ' '] ++ hexBytes payload
    else ['R', 'A', 'W', ' ', ' ', ' ', ' '] ++ hexByte op ++ if payload.isEmpty then [] else ' ' :: hexBytes payload

/-- The names of the status codes (rule R77). -/
def statusName (code : BitVec 8) : List Char :=
  if code = 0x00 then ['O', 'K']
  else if code = 0x01 then ['U', 'S', 'A', 'G', 'E', '_', 'P', 'H', 'A', 'S', 'E']
  else if code = 0x02 then ['U', 'S', 'A', 'G', 'E', '_', 'L', 'E', 'N', 'G', 'T', 'H']
  else if code = 0x03 then ['I', 'L', 'L', 'E', 'G', 'A', 'L', '_', 'O', 'P', 'C', 'O', 'D', 'E']
  else ['r', 'e', 's', 'e', 'r', 'v', 'e', 'd']

/-- The line of a response: status name, phase, error flag and payload (rule R84). -/
def responseLine (rsp : Response) : List Char :=
  ['-', '>', ' '] ++ statusName (rsp.header.extractLsb' 0 8)
    ++ [' ', 'p', 'h', 'a', 's', 'e', '='] ++ [hexDigit (rsp.header.extractLsb' 8 2).toNat]
    ++ [' ', 'e', 'r', 'r', '='] ++ [hexDigit (rsp.header.extractLsb' 10 1).toNat]
    ++ (if rsp.payload.isEmpty then [] else ' ' :: hexBytes rsp.payload)

/-- A response on the wire: the header's four bytes, least significant first, then the payload (rules R75, R76). -/
def responseWire (rsp : Response) : List Byte := toLE 4 rsp.header.toNat ++ rsp.payload

end Sys2Proof.Machine
end

