-- ==== Sys2Proof/Tests/Slice0.lean ====
section
/-! SUPPORT. The model's own tests. Expected values are those spec/ prints: spec/95_test_vectors.md, the examples of the
rules, and words written out from spec/30_encoding.md. The last part holds, for each statement with hypotheses, a state
and operands that meet them. -/

namespace Sys2Proof.Tests

open Sys2Proof.Machine

/-! ### Helpers -/

/-- `KEY1`, the key of D0 section 8 (95_test_vectors.md). -/
def key1 : List Byte :=
  [0x3A, 0x7F, 0xC2, 0x1D, 0x55, 0x9B, 0xE0, 0x4C, 0x8A, 0x2E, 0x73, 0x6D, 0xF1, 0x90, 0x12, 0x38,
   0xA4, 0xB6, 0x05, 0xE9, 0xD7, 0x30, 0x19, 0xCB, 0x84, 0xFE, 0x6A, 0x41, 0x97, 0x20, 0xDA, 0x11]

/-- "Hello World!" (95_test_vectors.md S1). -/
def hello : List Byte := [0x48, 0x65, 0x6C, 0x6C, 0x6F, 0x20, 0x57, 0x6F, 0x72, 0x6C, 0x64, 0x21]

/-- The tag of S1. -/
def helloTag : List Byte :=
  [0x8B, 0x4E, 0x6C, 0x3B, 0xA3, 0xCA, 0x72, 0xE6, 0x4C, 0x29, 0x40, 0x2A, 0x38, 0x2A, 0xE6, 0x11]

/-- `n` bytes counting up from `start`. -/
def counting (start : Nat) : Nat → List Byte
  | 0 => []
  | n + 1 => BitVec.ofNat 8 start :: counting (start + 1) n

/-- An engine in `Accumulating` under a key, with the given bytes in its buffer. -/
def loaded (key bytes : List Byte) : State :=
  { keyDerive key State.reset with
    phase := .accumulating, buf := cellsFrom 0 bytes, buflen := BitVec.ofNat 6 bytes.length }

/-- The next state of an outcome, if it is one. -/
def nextOf : Res State → Option State
  | .next s => some s
  | .fault _ => none
  | .refused _ => none

/-- The last response of an outcome, header as a number. -/
def lastOf (r : Res State) : Option (Nat × List Byte) :=
  (nextOf r).bind fun s => s.responses.getLast?.map fun rsp => (rsp.header.toNat, rsp.payload)

/-- What a decoder answered, as an option. -/
def okOf {α : Type} (x : Except DecodeError α) : Option α := x.toOption

/-! ### Well-formedness: a term each check refuses -/

theorem test_init_too_long : (Instr.init (List.replicate (2 ^ 24) 0)).wellFormed = false := by
  rw [Instr.wellFormed, lenFits, List.length_replicate]
  decide

theorem test_update_too_long : (Instr.update (List.replicate (2 ^ 24) 0)).wellFormed = false := by
  rw [Instr.wellFormed, lenFits, List.length_replicate]
  decide

theorem test_final_too_long : (Instr.final (List.replicate (2 ^ 24) 0)).wellFormed = false := by
  rw [Instr.wellFormed, lenFits, List.length_replicate]
  decide

theorem test_verify_too_long : (Instr.verify (List.replicate (2 ^ 24) 0)).wellFormed = false := by
  rw [Instr.wellFormed, lenFits, List.length_replicate]
  decide

theorem test_longest_update_fits : (Instr.update (List.replicate (2 ^ 24 - 1) 0)).wellFormed = true := by
  rw [Instr.wellFormed, lenFits, List.length_replicate]
  decide

/-! ### Decoding: words written out from rules R71, R73, R75, R79 -/

/-- INIT of KEY1: OPCODE 0x01 in byte 0, LEN 0x000020 in bytes 1 to 3 (rule R75's example). -/
theorem test_decode_init :
    okOf (decodeBytes ([0x01, 0x20, 0x00, 0x00] ++ key1)).1 = some (.init key1) := by decide

/-- UPDATE "ab" (95_test_vectors.md section 9, row 1). -/
theorem test_decode_update :
    okOf (decodeBytes [0x02, 0x02, 0x00, 0x00, 0x61, 0x62]).1 = some (.update [0x61, 0x62]) := by decide

/-- A 0x0001FF-byte LEN is read from bits 31:8 of the header, not from one byte. -/
theorem test_decode_len : (lenOf 0x0001FF02).toNat = 511 ∧ opcodeOf 0x0001FF02 = 0x02 := by decide

theorem test_decode_final : okOf (decodeBytes [0x03, 0x00, 0x00, 0x00]).1 = some (.final []) := by decide

theorem test_decode_verify :
    okOf (decodeBytes ([0x04, 0x10, 0x00, 0x00] ++ helloTag)).1 = some (.verify helloTag) := by decide

/-- Opcode 0x7F with LEN 3 (section 9, row 2): illegal, its payload consumed. -/
theorem test_decode_illegal :
    okOf (decodeBytes [0x7F, 0x03, 0x00, 0x00, 1, 2, 3, 9]).1 = none ∧
    (decodeBytes [0x7F, 0x03, 0x00, 0x00, 1, 2, 3, 9]).2 = [9] := by decide

/-- A stream that ends in the header or in the payload is no event, and no byte of it is taken (U12; log entry 26). -/
theorem test_decode_partial :
    okOf (decodeBytes [0x02, 0x02, 0x00]).1 = none ∧ (decodeBytes [0x02, 0x02, 0x00]).2 = [0x02, 0x02, 0x00] ∧
    okOf (decodeBytes [0x02, 0x02, 0x00, 0x00, 0x61]).1 = none ∧
    (decodeBytes [0x02, 0x02, 0x00, 0x00, 0x61]).2 = [0x02, 0x02, 0x00, 0x00, 0x61] := by decide

theorem test_decode_fadd : decodeTableWord 8 0b001 = some (.fadd Wide.zero Wide.zero) := by decide
theorem test_decode_fcarry : decodeTableWord 8 0b010 = some (.fcarry Wide.zero) := by decide
theorem test_decode_fmul : decodeTableWord 8 0b011 = some (.fmul Narrow.zero Narrow.zero) := by decide
theorem test_decode_freduce : decodeTableWord 8 0b100 = some (.freduce Narrow.zero) := by decide
theorem test_decode_reserved :
    decodeTableWord 8 0b000 = none ∧ decodeTableWord 8 0b101 = none ∧ decodeTableWord 8 0b110 = none ∧
    decodeTableWord 8 0b111 = none := by decide

/-- The table's `legal_header` of INIT with a payload of zeros. -/
theorem test_table_word_init : decodeTableWord 32 0x00002001 = some (.init (List.replicate 32 0)) := by decide

/-! ### INIT -/

/-- Rule R126: R, S and the powers of KEY1. -/
theorem test_init_key1 :
    (nextOf (exec (.init key1) State.reset)).map
        (fun s => (s.r, s.mask, s.pow1, s.pow2, s.pow3, s.pow4)) =
      some (⟨0x0E09B551DC27F3A, 0x243C5B5CCBA293⟩, 0x11DA2097416AFE84CB1930D7E905B6A4,
        ⟨0x0E09B551DC27F3A, 0x243C5B5CCBA293⟩, ⟨0x23E7F53B169D48D, 0x159DB608B3A3A0E⟩,
        ⟨0x10A401AC6A4590D, 0x157935739981E72⟩, ⟨0x0AACA50C2FD3F96, 0x0D092A41AE64CB5⟩) := by decide

/-- Rule R82: INIT with LEN = 31 in Idle, 0x00000402. -/
theorem test_init_short_key : lastOf (exec (.init (key1.take 31)) State.reset) = some (0x00000402, []) := by decide

/-! ### UPDATE -/

/-- Rule R134's example: 12 bytes wait in the buffer, nothing is folded, response 0x00000100. -/
theorem test_update_hello :
    (nextOf (exec (.update hello) (loaded key1 []))).map (fun s => (s.acc, s.buflen, s.bufBytes)) =
      some (Narrow.zero, 12, hello) ∧
    lastOf (exec (.update hello) (loaded key1 [])) = some (0x00000100, []) := by decide

/-- Rule R151's example: the 56th byte folds the unit 00 01 .. 37 and empties the buffer. -/
theorem test_update_folds_unit :
    (nextOf (exec (.update [0x37]) (loaded key1 (counting 0 55)))).map (fun s => (s.acc, s.buflen, s.buf)) =
      some (⟨0x2656B866B4F1A5A, 0x2E9CC577CEAF12B⟩, 0, []) := by decide

/-! ### FINAL -/

/-- S1: the tag D0 section 8 prints, with header 0x00100200 (rule R82). -/
theorem test_final_hello : lastOf (exec (.final []) (loaded key1 hello)) = some (0x00100200, helloTag) := by decide

/-- Program 3, command 4: two whole blocks and one byte, then the tag of the 85-byte message. -/
theorem test_final_tail :
    lastOf (exec (.final [])
        { loaded key1 (counting 0x38 29) with acc := ⟨0x2656B866B4F1A5A, 0x2E9CC577CEAF12B⟩ }) =
      some (0x00100200, [0xBA, 0x54, 0x6F, 0x51, 0x2F, 0x66, 0x8D, 0xC3, 0x23, 0xA5, 0xF0, 0xF6, 0x97, 0x4C, 0xE8,
        0x11]) := by decide

/-! ### VERIFY -/

/-- Section 8, row 1: the right tag gives 01. -/
theorem test_verify_right : lastOf (exec (.verify helloTag) (loaded key1 hello)) = some (0x00010200, [1]) := by decide

/-- Section 8, row 3: bit 7 of byte 15 flipped gives 00, which is no error. -/
theorem test_verify_wrong :
    lastOf (exec (.verify (helloTag.take 15 ++ [0x91])) (loaded key1 hello)) = some (0x00010200, [0]) := by decide

/-! ### The field unit (sections 2 to 5) -/

/-- No carry moves between the limbs. -/
theorem test_fadd_no_carry :
    (nextOf (exec (.fadd ⟨0x3FFFFFFFFFFFFFF, 0⟩ ⟨1, 0⟩) State.reset)).map State.fuOut =
      some ⟨0x400000000000000, 0⟩ := by decide

/-- The largest input of the precondition. -/
theorem test_fcarry_largest :
    (nextOf (exec (.fcarry ⟨0xFFFFFFFFFFFFFFFFFFFFFFFFFFFFFF, 0xFFFFFFFFFFFFFFFFFFFFFFFFFFFFFF⟩)
      State.reset)).map State.fuOut = some ⟨0x2F, 0x2F⟩ := by decide

/-- The three-step ripple of rule R102. -/
theorem test_fcarry_ripple :
    (nextOf (exec (.fcarry ⟨0x7FFFFFFFFFFFFFD, 0x3FFFFFFFFFFFFFF⟩) State.reset)).map State.fuOut =
      some ⟨0, 1⟩ := by decide

/-- The largest operands. -/
theorem test_fmul_largest :
    (nextOf (exec (.fmul ⟨0x3FFFFFFFFFFFFFF, 0x3FFFFFFFFFFFFFF⟩ ⟨0x3FFFFFFFFFFFFFF, 0x3FFFFFFFFFFFFFF⟩)
      State.reset)).map State.fuOut = some ⟨4, 0⟩ := by decide

/-- (P - 1)^2 with a result that is not canonical. -/
theorem test_fmul_not_canonical :
    (nextOf (exec (.fmul ⟨0x3FFFFFFFFFFFFFC, 0x3FFFFFFFFFFFFFF⟩ ⟨0x3FFFFFFFFFFFFFC, 0x3FFFFFFFFFFFFFF⟩)
      State.reset)).map State.fuOut = some ⟨0x3FFFFFFFFFFFFFE, 0x3FFFFFFFFFFFFFF⟩ := by decide

/-- P reduces to 0. -/
theorem test_freduce_prime :
    (nextOf (exec (.freduce ⟨0x3FFFFFFFFFFFFFD, 0x3FFFFFFFFFFFFFF⟩) State.reset)).map State.fuOut =
      some Wide.zero := by decide

/-- P - 1 comes back. -/
theorem test_freduce_below_prime :
    (nextOf (exec (.freduce ⟨0x3FFFFFFFFFFFFFC, 0x3FFFFFFFFFFFFFF⟩) State.reset)).map State.fuOut =
      some ⟨0x3FFFFFFFFFFFFFC, 0x3FFFFFFFFFFFFFF⟩ := by decide

/-! ### Steps and the trace syntax -/

/-- Section 9, row 1: UPDATE "ab" in Idle is USAGE_PHASE, wire bytes 01 04 00 00. -/
theorem test_step_update_idle :
    (nextOf (step { State.reset with inbox := [.command 0x00000202 [0x61, 0x62]] })).map
      (fun s => (s.responses.map responseWire, s.err, s.inbox)) = some ([[0x01, 0x04, 0x00, 0x00]], true, []) := by
  decide

/-- Rule R82: opcode 0x7F in Accumulating, 0x00000503. -/
theorem test_step_illegal_opcode :
    lastOf (step { loaded key1 hello with inbox := [.command 0x0000007F []] }) = some (0x00000503, []) := by decide

/-- Reset gives no response and clears ERR (program 4). -/
theorem test_step_reset :
    nextOf (step { loaded key1 hello with err := true, inbox := [.reset] }) = some State.reset := by decide

/-- The table's word of UPDATE runs as the first instruction after reset: USAGE_PHASE in Idle. -/
theorem test_placed_update : lastOf (step (State.reset.withFetchWord 32 2)) = some (0x00000401, []) := by decide

/-- The lines of rule R84 for a failed VERIFY with ERR set (program 2, response 10). -/
theorem test_response_line : responseLine ⟨0x00010600, [0]⟩ =
    ['-', '>', ' ', 'O', 'K', ' ', 'p', 'h', 'a', 's', 'e', '=', '2', ' ', 'e', 'r', 'r', '=', '1', ' ', '0', '0'] := rfl

/-- The lines of opcode 0x7F with LEN 1 and of opcode 0x00 (program 4's events, spaced as rule R84's form; log entry
25). -/
theorem test_raw_line :
    eventLine (.command 0x0000017F [1]) = ['R', 'A', 'W', ' ', ' ', ' ', ' ', '7', 'F', ' ', '0', '1'] ∧
    eventLine (.command 0x00000000 []) = ['R', 'A', 'W', ' ', ' ', ' ', ' ', '0', '0'] := ⟨rfl, rfl⟩

/-! ### Witnesses: states and operands that meet the hypotheses of each statement, one per clause, at the boundaries -/

/-- A message in progress, 12 bytes in the buffer. -/
def busy : State := loaded key1 hello

/-- The moment before a BATCHFOLD: 56 bytes in the buffer. -/
def full : State := loaded key1 (counting 0 56)

/-- A message in progress with the fullest buffer between commands: 55 bytes. -/
def brim : State := loaded key1 (counting 0 55)

/-- `busy` with one command presented. -/
def given (ch : Header) (payload : List Byte) : State := { busy with inbox := [.command ch payload] }

/-- `busy` with a field-unit operation presented. -/
def issued (f : FuIssue) : State := { busy with fuIssue := some f }

theorem witness_DecodeOfEncode :
    (Instr.init key1).wellFormed = true ∧ (Instr.update []).wellFormed = true ∧ (Instr.final []).wellFormed = true ∧
    (Instr.verify helloTag).wellFormed = true ∧ (Instr.fadd ⟨1, 2⟩ ⟨3, 4⟩).wellFormed = true ∧
    (Instr.fcarry ⟨1, 2⟩).wellFormed = true ∧ (Instr.fmul ⟨5, 7⟩ ⟨11, 13⟩).wellFormed = true ∧
    (Instr.freduce ⟨5, 7⟩).wellFormed = true := by decide

theorem witness_EncodeOfDecodedCommand : decode (.command 0x00000202 [0x61, 0x62]) = .ok (.update [0x61, 0x62]) := rfl

theorem witness_WireCommandTakesItsBytes : [(1 : Byte), 2, 3].length = (lenOf 0x0000037F).toNat := by decide

theorem witness_WrittenWordsDecode : key1.length = 32 ∧ helloTag.length = 16 := by decide

theorem witness_OpcodeMap :
    key1.length = (lenOf 0x00002001).toNat ∧ ([] : List Byte).length = (lenOf 0x00000002).toNat ∧
    ([] : List Byte).length = (lenOf 0x00000003).toNat ∧ helloTag.length = (lenOf 0x00001004).toNat ∧
    ([] : List Byte).length = (lenOf 0x00000000).toNat ∧ ([] : List Byte).length = (lenOf 0x00000005).toNat ∧
    [(9 : Byte)].length = (lenOf 0x000001FF).toNat := by decide

theorem witness_StepRunsDecodedCommand :
    (given 0x00000202 [0x61, 0x62]).fuIssue = none ∧
    (given 0x00000202 [0x61, 0x62]).inbox = .command 0x00000202 [0x61, 0x62] :: [] ∧
    decode (.command 0x00000202 [0x61, 0x62]) = .ok (.update [0x61, 0x62]) := ⟨rfl, rfl, rfl⟩

theorem witness_StepRunsDecodedFieldUnitIssue :
    (issued ⟨0b011, ⟨0, 0⟩, ⟨0, 0⟩, ⟨5, 7⟩, ⟨11, 13⟩⟩).fuIssue = some ⟨0b011, ⟨0, 0⟩, ⟨0, 0⟩, ⟨5, 7⟩, ⟨11, 13⟩⟩ ∧
    decode (.fieldUnit ⟨0b011, ⟨0, 0⟩, ⟨0, 0⟩, ⟨5, 7⟩, ⟨11, 13⟩⟩) = .ok (.fmul ⟨5, 7⟩ ⟨11, 13⟩) := ⟨rfl, rfl⟩

theorem witness_StepRunsPlacedWord :
    decodeTableWord 32 0x00000003 = some (.final []) ∧ decodeTableWord 8 0b011 = some (.fmul ⟨0, 0⟩ ⟨0, 0⟩) := by
  decide

theorem witness_IllegalOpcodeStep :
    (given 0x00000000 []).fuIssue = none ∧ (given 0x00000000 []).inbox = [.command 0x00000000 []] ∧
    ([] : List Byte).length = (lenOf 0x00000000).toNat ∧ (0x00000000 : Header).toNat % 256 = 0 ∧
    (given 0x00000105 [7]).fuIssue = none ∧ (given 0x00000105 [7]).inbox = [.command 0x00000105 [7]] ∧
    [(7 : Byte)].length = (lenOf 0x00000105).toNat ∧ 5 ≤ (0x00000105 : Header).toNat % 256 := by decide

theorem witness_ResetStep :
    { busy with inbox := [.reset] }.fuIssue = none ∧ { busy with inbox := [.reset] }.inbox = .reset :: [] :=
  ⟨rfl, rfl⟩

theorem witness_WaitingStepHoldsState : busy.fuIssue = none ∧ busy.inbox = [] := ⟨rfl, rfl⟩

theorem witness_StepRefusesBrokenInputs_payload :
    (given 0x00000302 [1, 2]).fuIssue = none ∧ (given 0x00000302 [1, 2]).inbox = .command 0x00000302 [1, 2] :: [] ∧
    [(1 : Byte), 2].length ≠ (lenOf 0x00000302).toNat := by decide

/-- Codes 0, 5 and 7. -/
theorem witness_StepRefusesBrokenInputs_reserved :
    (issued ⟨0, ⟨0, 0⟩, ⟨0, 0⟩, ⟨0, 0⟩, ⟨0, 0⟩⟩).fuIssue = some ⟨0, ⟨0, 0⟩, ⟨0, 0⟩, ⟨0, 0⟩, ⟨0, 0⟩⟩ ∧
    (0 : BitVec 3).toNat = 0 ∧
    (issued ⟨5, ⟨0, 0⟩, ⟨0, 0⟩, ⟨0, 0⟩, ⟨0, 0⟩⟩).fuIssue = some ⟨5, ⟨0, 0⟩, ⟨0, 0⟩, ⟨0, 0⟩, ⟨0, 0⟩⟩ ∧
    5 ≤ (5 : BitVec 3).toNat ∧
    (issued ⟨7, ⟨0, 0⟩, ⟨0, 0⟩, ⟨0, 0⟩, ⟨0, 0⟩⟩).fuIssue = some ⟨7, ⟨0, 0⟩, ⟨0, 0⟩, ⟨0, 0⟩, ⟨0, 0⟩⟩ ∧
    5 ≤ (7 : BitVec 3).toNat := by decide

/-- Codes 1 and 4. -/
theorem witness_StepRefusesBrokenInputs_assigned :
    (issued ⟨1, ⟨1, 2⟩, ⟨3, 4⟩, ⟨5, 7⟩, ⟨0, 0⟩⟩).fuIssue = some ⟨1, ⟨1, 2⟩, ⟨3, 4⟩, ⟨5, 7⟩, ⟨0, 0⟩⟩ ∧
    1 ≤ (1 : BitVec 3).toNat ∧ (1 : BitVec 3).toNat ≤ 4 ∧
    (issued ⟨4, ⟨1, 2⟩, ⟨3, 4⟩, ⟨5, 7⟩, ⟨0, 0⟩⟩).fuIssue = some ⟨4, ⟨1, 2⟩, ⟨3, 4⟩, ⟨5, 7⟩, ⟨0, 0⟩⟩ ∧
    1 ≤ (4 : BitVec 3).toNat ∧ (4 : BitVec 3).toNat ≤ 4 := by decide

theorem witness_WholeInputsComplete :
    (given 0x00000202 [0x61, 0x62]).Inv ∧ (given 0x00000202 [0x61, 0x62]).inputsWhole = true ∧
    (given 0x00000202 [0x61, 0x62]).fuIssue = none ∧
    (issued ⟨1, ⟨1, 2⟩, ⟨3, 4⟩, ⟨0, 0⟩, ⟨0, 0⟩⟩).Inv ∧
    (issued ⟨1, ⟨1, 2⟩, ⟨3, 4⟩, ⟨0, 0⟩, ⟨0, 0⟩⟩).inputsWhole = true := by decide

theorem witness_StepKeepsInv :
    (given 0x00000003 []).Inv ∧ (∃ t, step (given 0x00000003 []) = .next t) ∧
    { brim with inbox := [.command 0x00000102 [0x37]] }.Inv ∧
    (∃ t, step { brim with inbox := [.command 0x00000102 [0x37]] } = .next t) :=
  ⟨by decide, ⟨_, rfl⟩, by decide, ⟨_, rfl⟩⟩

theorem witness_StepKeepsBufferForm :
    Memory.wf { brim with inbox := [.command 0x00000102 [0x37]] }.buf = true ∧
    ∃ t, step { brim with inbox := [.command 0x00000102 [0x37]] } = .next t := ⟨by decide, _, rfl⟩

theorem witness_ErrIsSticky :
    (∃ t, step { given 0x00000003 [] with err := true } = .next t) ∧ { given 0x00000003 [] with err := true }.err = true :=
  ⟨⟨_, rfl⟩, rfl⟩

theorem witness_WriteMap :
    (∃ t, exec (.init [1]) busy = .next t) ∧ (∃ t, exec (.init key1) busy = .next t) ∧
    (∃ t, exec (.update []) busy = .next t) ∧ (∃ t, exec (.final []) busy = .next t) ∧
    (∃ t, exec (.fadd ⟨1, 2⟩ ⟨3, 4⟩) busy = .next t) ∧ isCommand (.fadd ⟨1, 2⟩ ⟨3, 4⟩) = false ∧
    isCommand (.init [1]) = true :=
  ⟨⟨_, rfl⟩, ⟨_, rfl⟩, ⟨_, rfl⟩, ⟨_, rfl⟩, ⟨_, rfl⟩, rfl, rfl⟩

/-- Lengths one off the legal one. -/
theorem witness_UsageLengthError_raised :
    (key1.take 31).length ≠ 32 ∧ (key1 ++ [0]).length ≠ 32 ∧ [(0 : Byte)].length ≠ 0 ∧
    (helloTag.take 15).length ≠ 16 ∧ (helloTag ++ [0]).length ≠ 16 := by decide

theorem witness_UsageLengthError_update :
    ∃ t rsp, exec (.update []) busy = .next t ∧ t.responses = busy.responses ++ [rsp] := ⟨_, _, rfl, rfl⟩

theorem witness_UsagePhaseError_raised :
    State.reset.phase ≠ .accumulating ∧ { busy with phase := .finalized }.phase ≠ .accumulating ∧
    ([] : List Byte).length = 0 ∧ helloTag.length = 16 := by decide

theorem witness_UsagePhaseError_init :
    ∃ t rsp, exec (.init key1) busy = .next t ∧ t.responses = busy.responses ++ [rsp] := ⟨_, _, rfl, rfl⟩

theorem witness_PhaseTable_commands :
    (∃ t, exec (.init key1) State.reset = .next t) ∧ (∃ t, exec (.update hello) State.reset = .next t) ∧
    (∃ t, exec (.final []) busy = .next t) ∧ (∃ t, exec (.verify helloTag) busy = .next t) ∧
    (∃ t, exec (.freduce ⟨5, 7⟩) busy = .next t) :=
  ⟨⟨_, rfl⟩, ⟨_, rfl⟩, ⟨_, rfl⟩, ⟨_, rfl⟩, ⟨_, rfl⟩⟩

theorem witness_PhaseTable_reset :
    { busy with inbox := [.reset] }.fuIssue = none ∧ { busy with inbox := [.reset] }.inbox = .reset :: [] ∧
    ∃ t, step { busy with inbox := [.reset] } = .next t := ⟨rfl, rfl, _, rfl⟩

theorem witness_PhaseTable_illegal :
    (given 0x0000007F []).fuIssue = none ∧ (given 0x0000007F []).inbox = .command 0x0000007F [] :: [] ∧
    decode (.command 0x0000007F []) = .error .illegalOpcode ∧ ∃ t, step (given 0x0000007F []) = .next t :=
  ⟨rfl, rfl, rfl, _, rfl⟩

/-- An OK of each command, and an error. -/
theorem witness_OneResponsePerCommand :
    (isCommand (.init key1) = true ∧ ∃ t, exec (.init key1) State.reset = .next t) ∧
    (isCommand (.update []) = true ∧ ∃ t, exec (.update []) busy = .next t) ∧
    (isCommand (.final []) = true ∧ ∃ t, exec (.final []) busy = .next t) ∧
    (isCommand (.verify helloTag) = true ∧ ∃ t, exec (.verify helloTag) busy = .next t) ∧
    (isCommand (.final [1]) = true ∧ ∃ t, exec (.final [1]) busy = .next t) :=
  ⟨⟨rfl, _, rfl⟩, ⟨rfl, _, rfl⟩, ⟨rfl, _, rfl⟩, ⟨rfl, _, rfl⟩, ⟨rfl, _, rfl⟩⟩

theorem witness_HeadersTellNoSecrets :
    decode (.command 0x00000202 [0x61, 0x62]) = .ok (.update [0x61, 0x62]) ∧
    decode (.command 0x00000202 [0x63, 0x64]) = .ok (.update [0x63, 0x64]) ∧
    busy.phase = brim.phase ∧ busy.err = brim.err ∧
    (∃ t, exec (.update [0x61, 0x62]) busy = .next t) ∧ (∃ t, exec (.update [0x63, 0x64]) brim = .next t) :=
  ⟨rfl, rfl, rfl, rfl, ⟨_, rfl⟩, ⟨_, rfl⟩⟩

theorem witness_InitResult : key1.length = 32 := by decide

/-- Two keys that differ in byte 14 only, two states. -/
theorem witness_InitForgetsAndClamps :
    key1.length = 32 ∧ (key1.set 14 0xFF).length = 32 ∧ key1.take 14 = (key1.set 14 0xFF).take 14 ∧
    key1.drop 16 = (key1.set 14 0xFF).drop 16 ∧ key1 ≠ key1.set 14 0xFF ∧
    (∃ t, exec (.init key1) busy = .next t) ∧ (∃ t, exec (.init (key1.set 14 0xFF)) State.reset = .next t) :=
  ⟨by decide, by decide, by decide, by decide, by decide, ⟨_, rfl⟩, ⟨_, rfl⟩⟩

/-- The largest sum that does not wrap. -/
theorem witness_FaddResult :
    (0xFFFFFFFFFFFFFFFFFFFFFFFFFFFFFFFE : Lane).toNat + (1 : Lane).toNat < 2 ^ 128 := by decide

/-- The largest lanes of the precondition, and the largest normalized ones. -/
theorem witness_FcarryResult :
    (0xFFFFFFFFFFFFFFFFFFFFFFFFFFFFFF : Lane).toNat < 2 ^ 120 ∧ (0x3FFFFFFFFFFFFFF : Lane).toNat < 2 ^ 58 := by decide

/-- Appending to an empty buffer and to 55 bytes; reading the first byte and the last block of a full buffer. -/
theorem witness_BufferAppendsAndReads :
    State.reset.Holds [] ∧ ([] : List Byte).length ≤ 55 ∧ brim.Holds (counting 0 55) ∧ (counting 0 55).length ≤ 55 ∧
    full.Holds (counting 0 56) ∧ 0 + 1 ≤ (counting 0 56).length ∧ 42 + 14 ≤ (counting 0 56).length ∧ 42 + 14 ≤ 56 := by
  decide

/-- Lengths 0 and 15 of rule R53; the first byte at `BUFLEN`; the first address outside `BUF` under a `BUFLEN` of 57; a
write beside `BUFLEN` and one at a full buffer. -/
theorem witness_BufferStopsOutOfRange :
    14 < 15 ∧ 1 ≤ 1 ∧ 1 ≤ 14 ∧ busy.buflen.toNat < 12 + 1 ∧
    43 + 14 ≤ { full with buflen := 57 }.buflen.toNat ∧ 56 < 43 + 14 ∧
    13 ≠ busy.buflen.toNat ∧ 56 ≤ full.buflen.toNat := by decide

/-- U21: these accesses are refused; so a write to a full buffer, and a read of 0 or 15 bytes inside it. -/
theorem test_buffer_refusals :
    memWrite full 56 0 = .refused .memWrite ∧ memRead full 0 0 = .refused .memRead ∧
    memRead full 0 15 = .refused .memRead ∧ memRead full 43 14 = .refused .memRead ∧
    padBlock full 50 15 = .refused .blockLength := ⟨rfl, rfl, rfl, rfl, rfl⟩

/-- The shortest and the longest block. -/
theorem witness_PadBlockValue :
    busy.Holds hello ∧ 11 + 1 ≤ hello.length ∧ 11 + 1 ≤ 56 ∧
    full.Holds (counting 0 56) ∧ 42 + 14 ≤ (counting 0 56).length ∧ 42 + 14 ≤ 56 := by decide

theorem witness_PaddingIsInjective : paddedValue [0x61] = paddedValue [0x61] := rfl

theorem witness_FullBlockLayout : (counting 0 7).length = 7 ∧ (counting 8 6).length = 6 := by decide

theorem witness_BlockFoldResult :
    busy.Holds hello ∧ 0 + 12 ≤ hello.length ∧ 0 + 12 ≤ 56 ∧
    full.Holds (counting 0 56) ∧ 42 + 14 ≤ (counting 0 56).length ∧ 42 + 14 ≤ 56 := by decide

theorem witness_BatchFoldResult :
    (counting 0 14).length = 14 ∧ (counting 14 14).length = 14 ∧ (counting 28 14).length = 14 ∧
    (counting 42 14).length = 14 ∧ full.Holds (counting 0 14 ++ counting 14 14 ++ counting 28 14 ++ counting 42 14) ∧
    full.PowersOk := by decide

theorem witness_BatchEqualsFourBlockFolds :
    full.Holds (counting 0 56) ∧ (counting 0 56).length = 56 ∧ full.PowersOk := by decide

/-- No bytes, one byte short of a unit, and a whole number of blocks. -/
theorem witness_TailResult :
    (loaded key1 []).Holds [] ∧ brim.Holds (counting 0 55) ∧ (counting 0 55).length ≤ 55 ∧
    (loaded key1 (counting 0 42)).Holds (counting 0 42) := by decide

theorem witness_UpdateResult :
    busy.phase = .accumulating ∧ busy.Holds hello ∧ hello.length ≤ 55 ∧ busy.PowersOk ∧
    brim.phase = .accumulating ∧ brim.Holds (counting 0 55) ∧ (counting 0 55).length ≤ 55 ∧ brim.PowersOk := by
  decide

theorem witness_ChunkInvariance : brim.phase = .accumulating ∧ brim.BufOk := by decide

theorem witness_AbsorbedMessage_init : key1.length = 32 ∧ ∃ t, exec (.init key1) busy = .next t :=
  ⟨by decide, _, rfl⟩

theorem witness_AbsorbedMessage_update :
    brim.phase = .accumulating ∧ brim.PowersOk ∧ brim.Absorbed (counting 0 55) ∧
    ∃ t, exec (.update [0x37]) brim = .next t := ⟨by decide, by decide, by decide, _, rfl⟩

theorem witness_AbsorbedMessage_other :
    busy.phase = .accumulating ∧ busy.Absorbed hello ∧
    (∃ t, exec (.init [1]) busy = .next t ∧ t.phase = .accumulating) ∧ [(1 : Byte)].length ≠ 32 ∧
    (∃ t, exec (.fcarry ⟨1, 2⟩) busy = .next t ∧ t.phase = .accumulating) :=
  ⟨by decide, by decide, ⟨_, rfl, rfl⟩, by decide, ⟨_, rfl, rfl⟩⟩

theorem witness_FinalResult :
    (loaded key1 []).phase = .accumulating ∧ (loaded key1 []).Holds [] ∧
    brim.phase = .accumulating ∧ brim.Holds (counting 0 55) ∧ (counting 0 55).length ≤ 55 := by decide

theorem witness_VerifyResult :
    busy.phase = .accumulating ∧ busy.Holds hello ∧ hello.length ≤ 55 ∧ helloTag.length = 16 := by decide

theorem witness_CteqIsEquality :
    helloTag.length = helloTag.length ∧ helloTag.length = (helloTag.set 15 0x91).length := by decide

theorem witness_TagOfMessage : key1.length = 32 := by decide

theorem witness_VerifyOfMessage : key1.length = 32 ∧ helloTag.length = 16 := by decide

theorem witness_BatchedEqualsScalarEngine :
    key1.length = 32 ∧ (Instr.final [] = .final []) ∧
    ∃ expected : List Byte, expected.length = 16 ∧ Instr.verify helloTag = .verify expected :=
  ⟨by decide, rfl, helloTag, by decide, rfl⟩

theorem witness_AuthGivesTag : key1.length = 32 := by decide

theorem witness_TagCornerCases : key1.length = 32 ∧ key1.drop 16 ≠ List.replicate 16 0 := by decide

/-- INIT, UPDATE, opcode 0x7F, UPDATE, FINAL, presented after reset. -/
def badRun : State :=
  { State.reset with
    inbox := [.command 0x00002001 key1, .command 0x00000C02 hello, .command 0x0000017F [1], .command 0x00000102 [0x61],
      .command 0x00000003 []] }

/-- `badRun`, and the other bad commands. -/
theorem witness_BadCommandDoesNoDamage :
    key1.length = 32 ∧ hello.length < 2 ^ 24 ∧ [(0x61 : Byte)].length < 2 ^ 24 ∧
    [(1 : Byte)].length = (lenOf 0x0000017F).toNat ∧ 5 ≤ (0x0000017F : Header).toNat % 256 ∧
    [(1 : Byte)].length = (lenOf 0x00000100).toNat ∧ (0x00000100 : Header).toNat % 256 = 0 ∧
    [(1 : Byte)].length = (lenOf 0x00000101).toNat ∧ (0x00000101 : Header).toNat % 256 = 1 ∧ [(1 : Byte)].length ≠ 32 ∧
    [(1 : Byte)].length = (lenOf 0x00000103).toNat ∧ (0x00000103 : Header).toNat % 256 = 3 ∧ [(1 : Byte)].length ≠ 0 ∧
    [(1 : Byte)].length = (lenOf 0x00000104).toNat ∧ (0x00000104 : Header).toNat % 256 = 4 ∧ [(1 : Byte)].length ≠ 16 ∧
    badRun.fuIssue = none ∧
    badRun.inbox =
      .command (commandHeader 0x01 32) key1 :: .command (commandHeader 0x02 (BitVec.ofNat 24 hello.length)) hello ::
      .command 0x0000017F [1] :: .command (commandHeader 0x02 (BitVec.ofNat 24 [(0x61 : Byte)].length)) [0x61] ::
      .command (commandHeader 0x03 0) [] :: [] := by decide

/-- Each command, an error of each kind, and an unassigned opcode. -/
theorem witness_CommandIsItsSeries :
    (given 0x00001004 helloTag).fuIssue = none ∧ (given 0x00001004 helloTag).inbox = .command 0x00001004 helloTag :: [] ∧
    key1.length = (lenOf 0x00002001).toNat ∧ ([] : List Byte).length = (lenOf 0x00000002).toNat ∧
    ([] : List Byte).length = (lenOf 0x00000003).toNat ∧ helloTag.length = (lenOf 0x00001004).toNat ∧
    ([] : List Byte).length = (lenOf 0x00000001).toNat ∧ ([] : List Byte).length = (lenOf 0x0000007F).toNat := by decide

theorem witness_OperationCounts :
    0 ≤ 55 ∧ 55 ≤ 55 ∧ (finalSeries 55 = finalSeries 55 ∨ finalSeries 55 = verifySeries 55) ∧
    (verifySeries 55 = finalSeries 55 ∨ verifySeries 55 = verifySeries 55) := ⟨by decide, by decide, .inl rfl, .inr rfl⟩

end Sys2Proof.Tests
end

/-! Bytes, padded blocks and limb pairs as numbers (rules R10, R11, R64, R132). -/

namespace Sys2Proof

/-! ### The little-endian integer of a byte string -/

@[simp] theorem ofLE_nil : ofLE [] = 0 := rfl

@[simp] theorem ofLE_cons (b : Byte) (bs : List Byte) : ofLE (b :: bs) = b.toNat + 256 * ofLE bs := rfl

theorem ofLE_lt (bs : List Byte) : ofLE bs < 2 ^ (8 * bs.length) := by
  induction bs with
  | nil => simp
  | cons b bs ih =>
    have hb : b.toNat < 256 := b.isLt
    rw [ofLE_cons, List.length_cons, Nat.mul_succ, Nat.pow_add]
    omega

theorem ofLE_append (as bs : List Byte) : ofLE (as ++ bs) = ofLE as + 2 ^ (8 * as.length) * ofLE bs := by
  induction as with
  | nil => simp
  | cons a as ih =>
    rw [List.cons_append, ofLE_cons, ofLE_cons, ih, List.length_cons, Nat.mul_succ, Nat.pow_add]
    ring

/-! ### The padded value and its limbs -/

/-- The padding bit stands above every message bit, so setting it adds it (rule R132). -/
theorem paddedValue_eq_add (block : List Byte) : paddedValue block = ofLE block + 2 ^ (8 * block.length) := by
  have h := Nat.two_pow_add_eq_or_of_lt (ofLE_lt block) 1
  rw [Nat.mul_one] at h
  rw [paddedValue, Nat.or_comm, ← h, Nat.add_comm]

@[simp] theorem split_l0_toNat (v : Nat) : (split v).l0.toNat = v % 2 ^ 58 := BitVec.toNat_ofNat v 58

@[simp] theorem split_l1_toNat (v : Nat) : (split v).l1.toNat = v / 2 ^ 58 % 2 ^ 58 := BitVec.toNat_ofNat (v / 2 ^ 58) 58

/-- The padded value of a full block, cut at byte 7, the byte that lies across the limb boundary (rule R64). -/
theorem paddedValue_fullBlock {lo hi : List Byte} (b7 : Byte) (hlo : lo.length = 7) (hhi : hi.length = 6) :
    paddedValue (lo ++ b7 :: hi) = ofLE lo + 2 ^ 56 * b7.toNat + 2 ^ 64 * ofLE hi + 2 ^ 112 := by
  rw [paddedValue_eq_add, ofLE_append, ofLE_cons, List.length_append, List.length_cons, hlo, hhi]
  omega

/-- Settles O39: bit 58 of the padded value is bit 2 of byte 7, and every part lies below the next one. -/
theorem fullBlockLayout : Obligations.FullBlockLayout := by
  intro lo hi b7 hlo hhi
  have hloLt : ofLE lo < 2 ^ 56 := by simpa [hlo] using ofLE_lt lo
  have hhiLt : ofLE hi < 2 ^ 48 := by simpa [hhi] using ofLE_lt hi
  have hb7Lt : b7.toNat < 256 := b7.isLt
  rw [split_l0_toNat, split_l1_toNat, paddedValue_fullBlock b7 hlo hhi]
  constructor
  · omega
  · omega

end Sys2Proof

/-! Commands on a byte stream (rules R75, R83, R87). -/

namespace Sys2Proof

/-! ### The little-endian bytes of a number -/

@[simp] theorem toLE_length (n v : Nat) : (toLE n v).length = n := by
  induction n generalizing v with
  | zero => rfl
  | succ n ih => rw [toLE, List.length_cons, ih]

/-- The `n` bytes of a number keep its low `8 * n` bits (rule R10). -/
theorem ofLE_toLE (n v : Nat) : ofLE (toLE n v) = v % 2 ^ (8 * n) := by
  induction n generalizing v with
  | zero => simp [toLE, Nat.mod_one]
  | succ n ih =>
    rw [toLE, ofLE_cons, ih, BitVec.toNat_ofNat, Nat.mul_succ, Nat.add_comm (8 * n), Nat.pow_add, Nat.mod_mul]

/-! ### The command at the front of a stream -/

/-- The header read from its own four bytes (rule R75). -/
theorem ofLE_headerBytes (ch : Header) : BitVec.ofNat 32 (ofLE (toLE 4 ch.toNat)) = ch := by
  rw [ofLE_toLE, Nat.mod_eq_of_lt ch.isLt, BitVec.ofNat_toNat, BitVec.setWidth_eq]

/-- A stream that begins with a header and holds at least its `LEN` payload bytes: decoding takes exactly these. -/
theorem decodeBytes_headerBytes_append (ch : Header) {stream : List Byte} (h : (lenOf ch).toNat ≤ stream.length) :
    decodeBytes (toLE 4 ch.toNat ++ stream) =
      (decodeCommand ch (stream.take (lenOf ch).toNat), stream.drop (lenOf ch).toNat) := by
  have hch := ofLE_headerBytes ch
  simp only [toLE] at hch
  simp only [toLE, List.cons_append, List.nil_append, decodeBytes, hch, if_neg (Nat.not_lt.mpr h)]

@[simp] theorem wireBytes_length (ch : Header) (payload : List Byte) :
    (wireBytes ch payload).length = 4 + payload.length := by
  rw [wireBytes, List.length_append, toLE_length]

/-- Settles O3: the four header bytes give back `CH`, whose `LEN` cuts the stream right after the payload. -/
theorem wireCommandTakesItsBytes : Obligations.WireCommandTakesItsBytes := by
  intro ch payload rest hlen
  constructor
  · rw [wireBytes_length, hlen]
  · have hstream : (lenOf ch).toNat ≤ (payload ++ rest).length := by
      rw [List.length_append, hlen]
      exact Nat.le_add_right ..
    rw [wireBytes, List.append_assoc, decodeBytes_headerBytes_append ch hstream, ← hlen, List.take_left, List.drop_left]

end Sys2Proof

/-! The field unit against integers: FCARRY's lanes, bounds and value, the sums it is given, and FREDUCE's choice
(rules R100 to R106, R110). -/

namespace Sys2Proof

/-- The two lanes of a wide pair as numbers, the form in which rule R105 speaks of FCARRY. -/
def Wide.lanes (d : Wide) : Nat × Nat := (d.d0.toNat, d.d1.toNat)

/-- `val` of a pair of unbounded lanes (rule R11). -/
def laneVal (d : Nat × Nat) : Nat := d.1 + 2 ^ 58 * d.2

theorem Wide.lanes_injective {a b : Wide} (h : a.lanes = b.lanes) : a = b := by
  obtain ⟨a0, a1⟩ := a
  obtain ⟨b0, b1⟩ := b
  simpa [Wide.lanes, BitVec.toNat_inj] using h

theorem Wide.val_eq_laneVal (d : Wide) : d.val = laneVal d.lanes := rfl

theorem Wide.isNarrow_iff (d : Wide) : d.isNarrow = true ↔ d.lanes.1 < 2 ^ 58 ∧ d.lanes.2 < 2 ^ 58 := by
  rw [Wide.isNarrow, Bool.and_eq_true, decide_eq_true_eq, decide_eq_true_eq]
  exact Iff.rfl

theorem limb_setWidth_toNat (x : Limb) : (x.setWidth 128).toNat = x.toNat :=
  BitVec.toNat_setWidth_of_le (by decide)

theorem Narrow.lanes_widen (a : Narrow) : a.widen.lanes = (a.l0.toNat, a.l1.toNat) :=
  Prod.ext (limb_setWidth_toNat a.l0) (limb_setWidth_toNat a.l1)

@[simp] theorem Narrow.val_widen (a : Narrow) : a.widen.val = a.val := by
  rw [Wide.val_eq_laneVal, Narrow.lanes_widen]
  rfl

theorem Wide.val_narrow {d : Wide} (h : d.isNarrow = true) : d.narrow.val = d.val := by
  rw [← Narrow.val_widen, Wide.widen_narrow h]

theorem Narrow.val_lt (a : Narrow) : a.val < 2 ^ 116 := by
  have h0 := a.l0.isLt
  have h1 := a.l1.isLt
  rw [Narrow.val]
  omega

/-- `split` keeps every number of 116 bits (rule R11). -/
theorem val_split {v : Nat} (h : v < 2 ^ 116) : (split v).val = v := by
  rw [Narrow.val, split_l0_toNat, split_l1_toNat]
  omega

theorem prime_eq : Config.prime = 2 ^ 116 - 3 := rfl

end Sys2Proof

namespace Sys2Proof.Machine

/-! ### The five steps of FCARRY on lanes (rules R102, R107) -/

theorem and_lane58_toNat (x : Lane) : (x &&& lane58).toNat = x.toNat % 2 ^ 58 := by
  rw [BitVec.toNat_and]
  exact Nat.and_two_pow_sub_one_eq_mod x.toNat 58

theorem shiftRight58_toNat (x : Lane) : (x >>> 58).toNat = x.toNat / 2 ^ 58 := by
  rw [BitVec.toNat_ushiftRight, Nat.shiftRight_eq_div_pow]

theorem carryLow_lanes (d : Wide) : (carryLow d).lanes = wrappedLow d.lanes := by
  simp only [carryLow, wrappedLow, Wide.lanes, and_lane58_toNat, BitVec.toNat_add, shiftRight58_toNat]

theorem carryHigh_lanes (d : Wide) : (carryHigh d).lanes = wrappedHigh d.lanes := by
  simp only [carryHigh, wrappedHigh, Wide.lanes, and_lane58_toNat, BitVec.toNat_add, BitVec.toNat_mul,
    shiftRight58_toNat, BitVec.toNat_ofNat, Nat.add_mod_mod, Nat.mod_mul_mod]

theorem fieldCarry_lanes (d : Wide) : (fieldCarry d).lanes = wrappedCarry d.lanes := by
  simp only [fieldCarry, wrappedCarry, carryLow_lanes, carryHigh_lanes]

/-! ### Where no lane wraps (rule R105(a)) -/

theorem wrappedLow_eq_exactLow {d : Nat × Nat} (h0 : d.1 < 2 ^ 127) (h1 : d.2 < 2 ^ 127) :
    wrappedLow d = exactLow d := by
  rw [wrappedLow, exactLow, Nat.mod_eq_of_lt (b := 2 ^ 128) (by omega)]

theorem wrappedHigh_eq_exactHigh {d : Nat × Nat} (h0 : d.1 < 2 ^ 127) (h1 : d.2 < 2 ^ 127) :
    wrappedHigh d = exactHigh d := by
  rw [wrappedHigh, exactHigh, Nat.mod_eq_of_lt (b := 2 ^ 128) (by omega)]

/-- Steps S2 and S3, and again S4 and S5: one turn around the fold of 2^116 by 3. -/
theorem wrappedTurn_eq_exactTurn {d : Nat × Nat} (h0 : d.1 < 2 ^ 58) (h1 : d.2 < 2 ^ 121) :
    wrappedLow (wrappedHigh d) = exactLow (exactHigh d) := by
  rw [wrappedHigh_eq_exactHigh (by omega) (by omega)]
  apply wrappedLow_eq_exactLow
  · simp only [exactHigh]; omega
  · simp only [exactHigh]; omega

/-- After S1 only lane 1 can stand above 58 bits. -/
theorem exactLow_bounds {d : Nat × Nat} (h0 : d.1 < 2 ^ 120) (h1 : d.2 < 2 ^ 120) :
    (exactLow d).1 < 2 ^ 58 ∧ (exactLow d).2 < 2 ^ 121 := by
  simp only [exactLow]; omega

/-- After S3 lane 1 exceeds 58 bits by less than 97. -/
theorem firstTurn_bounds {d : Nat × Nat} (h0 : d.1 < 2 ^ 58) (h1 : d.2 < 2 ^ 121) :
    (exactLow (exactHigh d)).1 < 2 ^ 58 ∧ (exactLow (exactHigh d)).2 < 2 ^ 58 + 97 := by
  simp only [exactLow, exactHigh]; omega

/-- After S5 both lanes are below 2^58: a carry out of lane 1 in S4 leaves that lane far below 2^58. -/
theorem secondTurn_bounds {d : Nat × Nat} (h0 : d.1 < 2 ^ 58) (h1 : d.2 < 2 ^ 58 + 97) :
    (exactLow (exactHigh d)).1 < 2 ^ 58 ∧ (exactLow (exactHigh d)).2 < 2 ^ 58 := by
  simp only [exactLow, exactHigh]; omega

/-- Rule R105(a): under FCARRY's precondition no lane wraps. -/
theorem wrappedCarry_eq_exactCarry {d : Nat × Nat} (h0 : d.1 < 2 ^ 120) (h1 : d.2 < 2 ^ 120) :
    wrappedCarry d = exactCarry d := by
  obtain ⟨b0, b1⟩ := exactLow_bounds h0 h1
  obtain ⟨c0, c1⟩ := firstTurn_bounds b0 b1
  rw [wrappedCarry, wrappedLow_eq_exactLow (d := d) (by omega) (by omega), wrappedTurn_eq_exactTurn b0 b1,
    wrappedTurn_eq_exactTurn c0 (by omega), exactCarry]

/-- Rule R105(b): under FCARRY's precondition the result is normalized. -/
theorem exactCarry_bounds {d : Nat × Nat} (h0 : d.1 < 2 ^ 120) (h1 : d.2 < 2 ^ 120) :
    (exactCarry d).1 < 2 ^ 58 ∧ (exactCarry d).2 < 2 ^ 58 := by
  obtain ⟨b0, b1⟩ := exactLow_bounds h0 h1
  obtain ⟨c0, c1⟩ := firstTurn_bounds b0 b1
  exact secondTurn_bounds c0 c1

/-! ### What FCARRY keeps (rule R105(c)) -/

theorem laneVal_exactLow (d : Nat × Nat) : laneVal (exactLow d) = laneVal d := by
  simp only [laneVal, exactLow]; omega

/-- A carry `c` out of lane 1 comes back as `3 * c`, which lowers the value by `c * P`. -/
theorem laneVal_exactHigh (d : Nat × Nat) : laneVal (exactHigh d) + d.2 / 2 ^ 58 * Config.prime = laneVal d := by
  simp only [laneVal, exactHigh, prime_eq]; omega

theorem laneVal_exactCarry (d : Nat × Nat) : laneVal (exactCarry d) + carryQuotient d * Config.prime = laneVal d := by
  have h2 := laneVal_exactHigh (exactLow d)
  have h4 := laneVal_exactHigh (exactLow (exactHigh (exactLow d)))
  rw [laneVal_exactLow] at h2 h4
  rw [exactCarry, carryQuotient, laneVal_exactLow, Nat.add_mul]
  omega

/-- No step of FCARRY has anything to carry in a normalized pair. -/
theorem exactCarry_of_narrow {d : Nat × Nat} (h0 : d.1 < 2 ^ 58) (h1 : d.2 < 2 ^ 58) : exactCarry d = d := by
  have hlow : exactLow d = d := by rw [exactLow, Nat.mod_eq_of_lt h0, Nat.div_eq_of_lt h0, Nat.add_zero]
  have hhigh : exactHigh d = d := by
    rw [exactHigh, Nat.mod_eq_of_lt h1, Nat.div_eq_of_lt h1, Nat.mul_zero, Nat.add_zero]
  rw [exactCarry, hlow, hhigh, hlow, hhigh, hlow]

/-! ### FCARRY within its precondition (rules R102, R105) -/

section
variable {d : Wide} (h0 : d.lanes.1 < 2 ^ 120) (h1 : d.lanes.2 < 2 ^ 120)
include h0 h1

theorem fieldCarry_lanes_exact : (fieldCarry d).lanes = exactCarry d.lanes := by
  rw [fieldCarry_lanes, wrappedCarry_eq_exactCarry h0 h1]

theorem fieldCarry_isNarrow : (fieldCarry d).isNarrow = true := by
  rw [Wide.isNarrow_iff, fieldCarry_lanes_exact h0 h1]
  exact exactCarry_bounds h0 h1

theorem fieldCarry_val : (fieldCarry d).val + carryQuotient d.lanes * Config.prime = d.val := by
  rw [Wide.val_eq_laneVal, fieldCarry_lanes_exact h0 h1, laneVal_exactCarry, Wide.val_eq_laneVal]

/-- A carried sum is delivered narrow whole. -/
theorem fieldCarry_narrow_widen : (fieldCarry d).narrow.widen = fieldCarry d :=
  Wide.widen_narrow (fieldCarry_isNarrow h0 h1)

theorem fieldCarry_narrow_val_mod : (fieldCarry d).narrow.val % Config.prime = d.val % Config.prime := by
  rw [Wide.val_narrow (fieldCarry_isNarrow h0 h1), ← fieldCarry_val h0 h1, Nat.add_mul_mod_self_right]

end

/-- FCARRY leaves a normalized pair alone (rule R102). -/
theorem fieldCarry_of_isNarrow {d : Wide} (h : d.isNarrow = true) : fieldCarry d = d := by
  obtain ⟨h0, h1⟩ := (Wide.isNarrow_iff d).mp h
  apply Wide.lanes_injective
  rw [fieldCarry_lanes_exact (by omega) (by omega), exactCarry_of_narrow h0 h1]

/-! ### The sums FCARRY is given (rules R101, R103, R106) -/

/-- Where no lane reaches 2^128, FADD adds the lanes. -/
theorem fieldAdd_lanes {a b : Wide} (h0 : a.lanes.1 + b.lanes.1 < 2 ^ 128) (h1 : a.lanes.2 + b.lanes.2 < 2 ^ 128) :
    (fieldAdd a b).lanes = (a.lanes.1 + b.lanes.1, a.lanes.2 + b.lanes.2) :=
  Prod.ext (BitVec.toNat_add_of_lt h0) (BitVec.toNat_add_of_lt h1)

theorem fieldAdd_widen_lanes (a b : Narrow) :
    (fieldAdd a.widen b.widen).lanes = (a.l0.toNat + b.l0.toNat, a.l1.toNat + b.l1.toNat) := by
  have ha0 := a.l0.isLt
  have ha1 := a.l1.isLt
  have hb0 := b.l0.isLt
  have hb1 := b.l1.isLt
  rw [fieldAdd_lanes, a.lanes_widen, b.lanes_widen]
  · rw [a.lanes_widen, b.lanes_widen]; omega
  · rw [a.lanes_widen, b.lanes_widen]; omega

theorem limb_mul_lt (x y : Limb) : x.toNat * y.toNat < 2 ^ 116 :=
  calc
    x.toNat * y.toNat < 2 ^ 58 * 2 ^ 58 := Nat.mul_lt_mul'' x.isLt y.isLt
    _ = 2 ^ 116 := by norm_num

theorem limbProduct_toNat (x y : Limb) : (limbProduct x y).toNat = x.toNat * y.toNat := by
  have h := limb_mul_lt x y
  rw [limbProduct, BitVec.toNat_mul, limb_setWidth_toNat, limb_setWidth_toNat, Nat.mod_eq_of_lt (by omega)]

/-- Four exact products: with 58-bit limbs no sum of FMUL reaches 2^128. -/
theorem crossSums_lanes (a b : Narrow) :
    (crossSums a b).lanes =
      (a.l0.toNat * b.l0.toNat + 3 * (a.l1.toNat * b.l1.toNat),
        a.l0.toNat * b.l1.toNat + a.l1.toNat * b.l0.toNat) := by
  have h00 := limb_mul_lt a.l0 b.l0
  have h01 := limb_mul_lt a.l0 b.l1
  have h10 := limb_mul_lt a.l1 b.l0
  have h11 := limb_mul_lt a.l1 b.l1
  simp only [crossSums, Wide.lanes, BitVec.toNat_add, BitVec.toNat_mul, BitVec.toNat_ofNat, limbProduct_toNat]
  rw [Prod.mk.injEq]
  omega

theorem crossSums_bounds (a b : Narrow) : (crossSums a b).lanes.1 < 2 ^ 118 ∧ (crossSums a b).lanes.2 < 2 ^ 117 := by
  have h00 := limb_mul_lt a.l0 b.l0
  have h01 := limb_mul_lt a.l0 b.l1
  have h10 := limb_mul_lt a.l1 b.l0
  have h11 := limb_mul_lt a.l1 b.l1
  rw [crossSums_lanes]
  omega

/-- The product of weight 2^116 is taken three times instead, which lowers the value by that product times P. -/
theorem crossSums_val (a b : Narrow) :
    (crossSums a b).val + a.l1.toNat * b.l1.toNat * Config.prime = a.val * b.val := by
  rw [Wide.val_eq_laneVal, crossSums_lanes, laneVal, prime_eq, Narrow.val, Narrow.val]
  ring

/-! ### FMUL and the carried FADD modulo P (rules R103, R110) -/

theorem fieldMul_widen (a b : Narrow) : (fieldMul a b).widen = fieldCarry (crossSums a b) := by
  obtain ⟨h0, h1⟩ := crossSums_bounds a b
  exact fieldCarry_narrow_widen (by omega) (by omega)

theorem fieldMul_val_mod (a b : Narrow) : (fieldMul a b).val % Config.prime = a.val * b.val % Config.prime := by
  obtain ⟨h0, h1⟩ := crossSums_bounds a b
  rw [fieldMul, fieldCarry_narrow_val_mod (by omega) (by omega), ← crossSums_val, Nat.add_mul_mod_self_right]

theorem fieldAdd_widen_bounds (a b : Narrow) :
    (fieldAdd a.widen b.widen).lanes.1 < 2 ^ 59 ∧ (fieldAdd a.widen b.widen).lanes.2 < 2 ^ 59 := by
  have ha0 := a.l0.isLt
  have ha1 := a.l1.isLt
  have hb0 := b.l0.isLt
  have hb1 := b.l1.isLt
  rw [fieldAdd_widen_lanes]
  omega

theorem fieldAdd_widen_val (a b : Narrow) : (fieldAdd a.widen b.widen).val = a.val + b.val := by
  rw [Wide.val_eq_laneVal, fieldAdd_widen_lanes, laneVal, Narrow.val, Narrow.val]
  ring

theorem carriedSum_widen (a b : Narrow) : (carriedSum a b).widen = fieldCarry (fieldAdd a.widen b.widen) := by
  obtain ⟨h0, h1⟩ := fieldAdd_widen_bounds a b
  exact fieldCarry_narrow_widen (by omega) (by omega)

theorem carriedSum_val_mod (a b : Narrow) : (carriedSum a b).val % Config.prime = (a.val + b.val) % Config.prime := by
  obtain ⟨h0, h1⟩ := fieldAdd_widen_bounds a b
  rw [carriedSum, fieldCarry_narrow_val_mod (by omega) (by omega), fieldAdd_widen_val]

/-! ### FREDUCE (rules R36, R104) -/

/-- An all-zeros mask keeps the unreduced limb. -/
theorem maskSelect_zero (a t : Limb) : maskSelect (selectMask 0) a t = a := by
  have h : selectMask 0 = 0#58 := rfl
  rw [maskSelect, h, BitVec.not_zero, BitVec.and_allOnes, BitVec.and_zero, BitVec.or_zero]

/-- An all-ones mask takes the reduced limb. -/
theorem maskSelect_one (a t : Limb) : maskSelect (selectMask 1) a t = t := by
  have h : selectMask 1 = BitVec.allOnes 58 := by decide
  rw [maskSelect, h, BitVec.not_allOnes, BitVec.and_zero, BitVec.zero_or, BitVec.and_allOnes]

/-- `t0` of rule R104 with its carry bit: limb 0 plus 3 on 59 bits. -/
def reduceLow (a : Narrow) : BitVec 59 := a.l0.setWidth 59 + 3#59

/-- `t1` of rule R104 with its carry bit: limb 1 plus the carry of `reduceLow` on 59 bits. -/
def reduceHigh (a : Narrow) : BitVec 59 := a.l1.setWidth 59 + (reduceLow a >>> 58)

/-- The carry bit `g` of rule R104 as a limb. -/
def reduceCarry (a : Narrow) : Limb := (reduceHigh a >>> 58).setWidth 58

theorem fieldReduce_eq_select (a : Narrow) :
    fieldReduce a =
      ⟨maskSelect (selectMask (reduceCarry a)) a.l0 ((reduceLow a).setWidth 58),
        maskSelect (selectMask (reduceCarry a)) a.l1 ((reduceHigh a).setWidth 58)⟩ := rfl

theorem reduceLow_toNat (a : Narrow) : (reduceLow a).toNat = a.l0.toNat + 3 := by
  have h0 := a.l0.isLt
  rw [reduceLow, BitVec.toNat_add, BitVec.toNat_setWidth_of_le (by decide), BitVec.toNat_ofNat]
  omega

theorem reduceHigh_toNat (a : Narrow) : (reduceHigh a).toNat = a.l1.toNat + (a.l0.toNat + 3) / 2 ^ 58 := by
  have h0 := a.l0.isLt
  have h1 := a.l1.isLt
  rw [reduceHigh, BitVec.toNat_add, BitVec.toNat_setWidth_of_le (by decide), BitVec.toNat_ushiftRight,
    reduceLow_toNat, Nat.shiftRight_eq_div_pow]
  omega

/-- The carry bit tells whether `val(a) + 3` reaches 2^116. -/
theorem reduceCarry_toNat (a : Narrow) : (reduceCarry a).toNat = (a.val + 3) / 2 ^ 116 := by
  have h0 := a.l0.isLt
  have h1 := a.l1.isLt
  rw [reduceCarry, BitVec.toNat_setWidth, BitVec.toNat_ushiftRight, reduceHigh_toNat, Nat.shiftRight_eq_div_pow,
    Narrow.val]
  omega

/-- A value below P leaves the carry bit 0, and the pair stays. -/
theorem fieldReduce_of_lt {a : Narrow} (h : a.val < Config.prime) : fieldReduce a = a := by
  rw [prime_eq] at h
  have hg : reduceCarry a = 0 := by
    apply BitVec.eq_of_toNat_eq
    rw [reduceCarry_toNat, Nat.div_eq_of_lt (by omega)]
    rfl
  rw [fieldReduce_eq_select, hg, maskSelect_zero, maskSelect_zero]

/-- A value from P up sets the carry bit, and `t`, which is the value less P, is taken. -/
theorem fieldReduce_of_le {a : Narrow} (h : Config.prime ≤ a.val) : fieldReduce a = split (a.val - Config.prime) := by
  rw [prime_eq] at h
  have hlt := a.val_lt
  have h0 := a.l0.isLt
  have h1 := a.l1.isLt
  have hg : reduceCarry a = 1 := by
    apply BitVec.eq_of_toNat_eq
    rw [reduceCarry_toNat, Nat.div_eq_of_lt_le (k := 1) (by omega) (by omega)]
    rfl
  rw [fieldReduce_eq_select, hg, maskSelect_one, maskSelect_one, split, Narrow.mk.injEq]
  rw [Narrow.val] at h hlt
  constructor
  · apply BitVec.eq_of_toNat_eq
    rw [BitVec.toNat_setWidth, reduceLow_toNat, BitVec.toNat_ofNat, Narrow.val, prime_eq]
    omega
  · apply BitVec.eq_of_toNat_eq
    rw [BitVec.toNat_setWidth, reduceHigh_toNat, BitVec.toNat_ofNat, Narrow.val, prime_eq]
    omega

/-- One conditional subtraction is enough: `val(a) < 2^116 < 2 P`. -/
theorem fieldReduce_val (a : Narrow) : (fieldReduce a).val = a.val % Config.prime := by
  rcases Nat.lt_or_ge a.val Config.prime with h | h
  · rw [fieldReduce_of_lt h, Nat.mod_eq_of_lt h]
  · have hlt := a.val_lt
    have hrest : a.val - Config.prime < Config.prime := by rw [prime_eq]; omega
    rw [fieldReduce_of_le h, val_split (by omega), Nat.mod_eq_sub_mod h, Nat.mod_eq_of_lt hrest]

theorem fieldReduce_isCanonical (a : Narrow) : (fieldReduce a).isCanonical = true := by
  rw [Narrow.isCanonical, decide_eq_true_eq, fieldReduce_val]
  exact Nat.mod_lt _ (by decide)

/-! ### The contract of rule R110 -/

/-- Settles O33: FCARRY keeps the value modulo P and normalizes whatever sums FMUL and FADD give it, and FREDUCE takes
away P where the value reaches it. -/
theorem fieldUnitIsIntegerArithmetic : Obligations.FieldUnitIsIntegerArithmetic := by
  intro a b
  exact ⟨⟨fieldMul_val_mod a b, fieldMul_widen a b⟩, ⟨fieldReduce_val a, fieldReduce_isCanonical a⟩,
    ⟨carriedSum_val_mod a b, carriedSum_widen a b⟩, fieldCarry_of_isNarrow a.widen_isNarrow⟩

end Sys2Proof.Machine

/-! The key schedule and INIT (rules R120 to R123, R131). -/

namespace Sys2Proof.Machine

/-! ### The two key halves -/

/-- The clamp keeps 112 bits (rule R121). -/
theorem evalKey_lt (key : List Byte) : evalKey key < 2 ^ 112 := Nat.mod_lt _ (Nat.two_pow_pos 112)

theorem keyDerive_r_val (key : List Byte) (s : State) : (keyDerive key s).r.val = evalKey key := by
  have h := evalKey_lt key
  rw [keyDerive_r, val_split (by omega)]

/-- Bits 115:112 of `R` are clear, which leaves 54 bits to the upper limb. -/
theorem keyDerive_r_l1_lt (key : List Byte) (s : State) : (keyDerive key s).r.l1.toNat < 2 ^ 54 := by
  have h := evalKey_lt key
  rw [keyDerive_r, split_l1_toNat]
  omega

/-- `S` is wide enough for its 16 bytes, so nothing of them is cut off (rule R122). -/
theorem keyDerive_mask_toNat {key : List Byte} (s : State) (hkey : key.length = 32) :
    (keyDerive key s).mask.toNat = ofLE (key.drop 16) := by
  have hlen : (key.drop 16).length = 16 := by rw [List.length_drop, hkey]
  have hlt : ofLE (key.drop 16) < 2 ^ 128 := by simpa only [hlen] using ofLE_lt (key.drop 16)
  rw [keyDerive_mask, maskKey, List.take_of_length_le hlen.le, BitVec.toNat_ofNat, Nat.mod_eq_of_lt hlt]

/-! ### The powers of `R` (rule R123) -/

/-- FMUL by `r` takes a pair that stands for `r ^ n` to one that stands for `r ^ (n + 1)`. -/
theorem fieldMul_val_mod_pow_succ {a r : Narrow} {n : Nat} (h : a.val % Config.prime = r.val ^ n % Config.prime) :
    (fieldMul a r).val % Config.prime = r.val ^ (n + 1) % Config.prime := by
  rw [fieldMul_val_mod, Nat.mul_mod, h, ← Nat.mul_mod, ← Nat.pow_succ]

theorem keyDerive_powersOk (key : List Byte) (s : State) : (keyDerive key s).PowersOk := by
  have h1 : (keyDerive key s).r.val % Config.prime = (keyDerive key s).r.val ^ 1 % Config.prime := by rw [Nat.pow_one]
  have h2 := fieldMul_val_mod_pow_succ h1
  have h3 := fieldMul_val_mod_pow_succ h2
  exact ⟨rfl, h2, h3, fieldMul_val_mod_pow_succ h3⟩

/-! ### INIT (rule R131) -/

theorem exec_init_eq_next {key : List Byte} (s : State) (hkey : key.length = 32) :
    exec (.init key) s = .next (initBody key s) := by
  have hlen : (key.length == lenInit) = true := by rw [hkey]; rfl
  simp only [exec, execInit, hlen, checked, firstFailure]
  rfl

/-- Settles O27: INIT's registers are KEYDERIVE's, and its later writes touch neither the key registers nor the model's
other fields. -/
theorem initResult : Obligations.InitResult := by
  intro key s hkey
  refine ⟨initBody key s, exec_init_eq_next s hkey, keyDerive_r_val key s, keyDerive_r_l1_lt key s,
    keyDerive_mask_toNat s hkey, keyDerive_powersOk key s, ?frame⟩
  case frame => simp [initBody]

end Sys2Proof.Machine

/-! PADBLOCK and BLOCKFOLD on a buffer that holds a byte string (rules R132, R133). -/

namespace Sys2Proof.Machine

/-! ### The padded value of a block (rule R132) -/

theorem paddedValue_eq_blockTerm (block : List Byte) : paddedValue block = blockTerm block := paddedValue_eq_add block

/-- The padding bit is the topmost bit of the padded value. -/
theorem blockTerm_lt (block : List Byte) : blockTerm block < 2 ^ (8 * block.length + 1) := by
  have h := ofLE_lt block
  rw [blockTerm, Nat.pow_succ]
  omega

/-- A block of at most 14 bytes and its padding bit fit the two limbs with room to spare. -/
theorem blockTerm_lt_of_length_le {block : List Byte} (h : block.length ≤ 14) : blockTerm block < 2 ^ 113 :=
  calc
    blockTerm block < 2 ^ (8 * block.length + 1) := blockTerm_lt block
    _ ≤ 2 ^ 113 := Nat.pow_le_pow_right (by decide) (by omega)

theorem split_paddedValue_val {block : List Byte} (h : block.length ≤ 14) :
    (split (paddedValue block)).val = blockTerm block := by
  have hlt := blockTerm_lt_of_length_le h
  rw [paddedValue_eq_blockTerm, val_split (by omega)]

theorem split_paddedValue_isCanonical {block : List Byte} (h : block.length ≤ 14) :
    (split (paddedValue block)).isCanonical = true := by
  have hlt := blockTerm_lt_of_length_le h
  rw [Narrow.isCanonical, decide_eq_true_eq, split_paddedValue_val h, prime_eq]
  omega

/-! ### Blocks read from the buffer -/

/-- A range inside a byte string has its own length. -/
theorem length_take_drop {bs : List Byte} {a n : Nat} (h : a + n ≤ bs.length) : ((bs.drop a).take n).length = n := by
  rw [List.length_take, List.length_drop]
  omega

section
variable {s : State} {bs : List Byte} {a n : Nat} (h : s.Holds bs) (hn : 1 ≤ n ∧ n ≤ 14) (h1 : a + n ≤ bs.length)
  (h2 : a + n ≤ 56)
include h hn h1 h2

theorem Holds.padBlock_eq : padBlock s a n = .next (split (paddedValue ((bs.drop a).take n))) :=
  padBlock_eq_next.2 ⟨hn, _, Holds.memBytes_eq h hn h1 h2, rfl⟩

theorem Holds.blockFold_eq :
    blockFold s a n = .next (s.setAcc (fieldMul (carriedSum s.acc (split (paddedValue ((bs.drop a).take n)))) s.r)) :=
  blockFold_eq_next.2 ⟨_, Holds.padBlock_eq h hn h1 h2, rfl⟩

end

/-- One fold of rule R133 modulo P: add, then multiply. -/
theorem fieldMul_carriedSum_val_mod (acc m r : Narrow) :
    (fieldMul (carriedSum acc m) r).val % Config.prime = (acc.val + m.val) * r.val % Config.prime := by
  rw [fieldMul_val_mod, Nat.mul_mod, carriedSum_val_mod, ← Nat.mul_mod]

/-- Settles O37: the padding bit stands above the block's `8 n` bits, and `8 n + 1 ≤ 113` bits lie below P. -/
theorem padBlockValue : Obligations.PadBlockValue := by
  intro s bs a n hs hn1 hn14 hlen h56
  have hblock := length_take_drop hlen
  have hval := split_paddedValue_val (hblock.le.trans hn14)
  have hlt := blockTerm_lt ((bs.drop a).take n)
  rw [hblock] at hlt
  refine ⟨_, Holds.padBlock_eq hs ⟨hn1, hn14⟩ hlen h56, ?value, ?lower, ?upper,
    split_paddedValue_isCanonical (hblock.le.trans hn14)⟩
  case value => rw [hval, blockTerm, hblock]
  case lower => rw [hval, blockTerm, hblock]; exact Nat.le_add_left ..
  case upper => rw [hval]; exact hlt

/-- Settles O40: FADD and FMUL have the values of the sum and the product modulo P. -/
theorem blockFoldResult : Obligations.BlockFoldResult := by
  intro s bs a n hs hn1 hn14 hlen h56
  have hblock := length_take_drop hlen
  refine ⟨_, _, Holds.padBlock_eq hs ⟨hn1, hn14⟩ hlen h56, rfl, Holds.blockFold_eq hs ⟨hn1, hn14⟩ hlen h56, ?_⟩
  calc
    (fieldMul (carriedSum s.acc (split (paddedValue ((bs.drop a).take n)))) s.r).val % Config.prime
      = (s.acc.val + (split (paddedValue ((bs.drop a).take n))).val) * s.r.val % Config.prime :=
        fieldMul_carriedSum_val_mod ..
    _ = (s.acc.val + (ofLE ((bs.drop a).take n) + 2 ^ (8 * n))) * s.r.val % Config.prime := by
        rw [split_paddedValue_val (hblock.le.trans hn14), blockTerm, hblock]

end Sys2Proof.Machine

/-! The two outcomes of UPDATE, and UPDATE of no bytes (rules R134, R135). -/

namespace Sys2Proof.Machine

/-- Every `LEN` is legal for UPDATE, so in `Accumulating` its checks pass (rules R74, R87). -/
theorem exec_update_of_accumulating {s : State} (h : s.phase = .accumulating) (data : List Byte) :
    exec (.update data) s = andThen (absorb s data) fun t => .next (respond .ok [] t) := by
  have hp : phasePermits s.phase = true := (phasePermits_iff s.phase).2 h
  simp only [exec, execUpdate, hp]
  rfl

theorem exec_update_of_not_accumulating {s : State} (h : s.phase ≠ .accumulating) (data : List Byte) :
    exec (.update data) s = .next (raiseError .usagePhase s) := by
  have hp : phasePermits s.phase = false := Bool.eq_false_iff.2 (mt (phasePermits_iff s.phase).1 h)
  simp only [exec, execUpdate, hp]
  rfl

/-- Settles O45: the loop over no bytes is no work, and the phase check is the only one that can fail. -/
theorem zeroLengthUpdate : Obligations.ZeroLengthUpdate := by
  intro s
  split
  case isTrue h =>
    rw [exec_update_of_accumulating h, absorb, andThen_next, ← h]
    rfl
  case isFalse h =>
    rw [exec_update_of_not_accumulating h]
    rfl

end Sys2Proof.Machine

/-! UPDATE's loop on a buffer that holds a byte string: what it leaves, register by register, and that the cut of the bytes
into payloads does not matter (rules R134, R136). -/

namespace Sys2Proof.Machine

/-! ### A message and its whole units (rule R138) -/

theorem foldedPart_length (msg : List Byte) : (foldedPart msg).length = 56 * (msg.length / 56) := by
  rw [foldedPart, List.length_take]
  omega

theorem foldedPart_length_mod (msg : List Byte) : (foldedPart msg).length % 56 = 0 := by
  rw [foldedPart_length, Nat.mul_mod_right]

theorem bufferedPart_length (msg : List Byte) : (bufferedPart msg).length = msg.length % 56 := by
  rw [bufferedPart, List.length_drop]
  omega

theorem bufferedPart_length_le (msg : List Byte) : (bufferedPart msg).length ≤ 55 := by
  rw [bufferedPart_length]
  omega

theorem foldedPart_append_bufferedPart (msg : List Byte) : foldedPart msg ++ bufferedPart msg = msg :=
  List.take_append_drop ..

/-- Less than a unit is not folded. -/
theorem bufferedPart_of_length_le {msg : List Byte} (h : msg.length ≤ 55) : bufferedPart msg = msg := by
  rw [bufferedPart, Nat.div_eq_of_lt (by omega), Nat.mul_zero, List.drop_zero]

section
variable {units : List Byte} (h : units.length % 56 = 0) (rest : List Byte)
include h

/-- Whole units in front are in the folded part. -/
theorem foldedPart_units_append : foldedPart (units ++ rest) = units ++ foldedPart rest := by
  have hlen : 56 * ((units.length + rest.length) / 56) = units.length + 56 * (rest.length / 56) := by omega
  rw [foldedPart, List.length_append, hlen, List.take_length_add_append, foldedPart]

/-- Whole units in front do not reach the buffer. -/
theorem bufferedPart_units_append : bufferedPart (units ++ rest) = bufferedPart rest := by
  have hlen : 56 * ((units.length + rest.length) / 56) = units.length + 56 * (rest.length / 56) := by omega
  rw [bufferedPart, List.length_append, hlen, List.drop_length_add_append, bufferedPart]

end

/-- What is already folded does not come back into the buffer. -/
theorem bufferedPart_append (msg data : List Byte) :
    bufferedPart (msg ++ data) = bufferedPart (bufferedPart msg ++ data) := by
  conv_lhs => rw [← foldedPart_append_bufferedPart msg, List.append_assoc,
    bufferedPart_units_append (foldedPart_length_mod msg)]

/-- The folds go on where the folded part ends. -/
theorem foldedPart_append (msg data : List Byte) :
    foldedPart (msg ++ data) = foldedPart msg ++ foldedPart (bufferedPart msg ++ data) := by
  conv_lhs => rw [← foldedPart_append_bufferedPart msg, List.append_assoc,
    foldedPart_units_append (foldedPart_length_mod msg)]

/-! ### What the loop leaves (rule R134) -/

/-- `s` after the bytes `msg`, those of its buffer first, have gone through the loop of UPDATE: every whole unit folded,
the rest in the buffer. -/
def State.streamed (s : State) (msg : List Byte) : State :=
  (s.setAcc (unitsFold s (msg.length / 56) msg s.acc)).setBuf (cellsFrom 0 (bufferedPart msg))
    (BitVec.ofNat 6 (msg.length % 56))

theorem streamed_holds (s : State) (msg : List Byte) : (s.streamed msg).Holds (bufferedPart msg) := by
  refine ⟨rfl, ?_⟩
  rw [State.streamed, State.setBuf_buflen, BitVec.toNat_ofNat, bufferedPart_length]
  omega

/-- The folds of a string look at the powers of `R` and at no other register (rules R151, R152). -/
theorem unitsFold_congr {s t : State} (h1 : s.pow1 = t.pow1) (h2 : s.pow2 = t.pow2) (h3 : s.pow3 = t.pow3)
    (h4 : s.pow4 = t.pow4) (count : Nat) (bs : List Byte) (acc : Narrow) :
    unitsFold s count bs acc = unitsFold t count bs acc := by
  induction count generalizing bs acc with
  | zero => rfl
  | succ count ih =>
    have hunit : unitFold s (bs.take 56) acc = unitFold t (bs.take 56) acc := by
      simp only [unitFold, batchValue, State.setAcc_acc, State.setAcc_pow1, State.setAcc_pow2, State.setAcc_pow3,
        State.setAcc_pow4, h1, h2, h3, h4]
    rw [unitsFold, unitsFold, hunit, ih]

theorem unitsFold_setAcc (s : State) (v : Narrow) : unitsFold (s.setAcc v) = unitsFold s :=
  funext₃ (unitsFold_congr rfl rfl rfl rfl)

theorem unitsFold_setBuf (s : State) (buf : List Host.Cell) (n : BitVec 6) :
    unitsFold (s.setBuf buf n) = unitsFold s :=
  funext₃ (unitsFold_congr rfl rfl rfl rfl)

theorem unitsFold_respond (status : Status) (payload : List Byte) (s : State) :
    unitsFold (respond status payload s) = unitsFold s :=
  funext₃ (unitsFold_congr rfl rfl rfl rfl)

/-- Nothing more than what the buffer holds: nothing is changed. -/
theorem streamed_of_holds {s : State} {bs : List Byte} (h : s.Holds bs) (hl : bs.length ≤ 55) : s.streamed bs = s := by
  obtain ⟨hbuf, hlen⟩ := h
  have hbuflen : BitVec.ofNat 6 (bs.length % 56) = s.buflen := by
    rw [Nat.mod_eq_of_lt (by omega), ← hlen, BitVec.ofNat_toNat, BitVec.setWidth_eq]
  rw [State.streamed, Nat.div_eq_of_lt (by omega), unitsFold, bufferedPart_of_length_le hl, ← hbuf, hbuflen]
  rfl

/-- A change of the buffer alone is overwritten. -/
theorem streamed_setBuf (s : State) (buf : List Host.Cell) (n : BitVec 6) (msg : List Byte) :
    (s.setBuf buf n).streamed msg = s.streamed msg := by
  rw [State.streamed, unitsFold_setBuf]
  rfl

/-- The first unit is folded first. -/
theorem streamed_unit_append (s : State) {unit : List Byte} (h : unit.length = 56) (rest : List Byte) :
    s.streamed (unit ++ rest) = ((s.setAcc (unitFold s unit s.acc)).bufEmpty).streamed rest := by
  have hcount : (56 + rest.length) / 56 = rest.length / 56 + 1 := by omega
  have hacc : unitsFold s ((unit ++ rest).length / 56) (unit ++ rest) s.acc =
      unitsFold s (rest.length / 56) rest (unitFold s unit s.acc) := by
    rw [List.length_append, h, hcount, unitsFold, ← h, List.take_left, List.drop_left]
  rw [State.bufEmpty, streamed_setBuf, State.streamed, State.streamed, hacc, bufferedPart_units_append (by rw [h]),
    List.length_append, h, Nat.add_mod_left, unitsFold_setAcc]
  rfl

/-! ### One byte -/

/-- BATCHFOLD on a full buffer folds the unit it holds (rule R151). -/
theorem Holds.batchFold_eq {s : State} {unit : List Byte} (h : s.Holds unit) (hl : unit.length = 56) :
    batchFold s = .next (s.setAcc (unitFold s unit s.acc)) := by
  have hblock : ∀ a, a + 14 ≤ 56 → padBlock s a 14 = .next (split (paddedValue ((unit.drop a).take 14))) :=
    fun a ha => Holds.padBlock_eq h (by decide) (hl ▸ ha) ha
  exact batchFold_eq_next.2
    ⟨_, _, _, _, hblock 0 (by decide), hblock 14 (by decide), hblock 28 (by decide), hblock 42 (by decide), rfl⟩

/-- A byte that does not fill the unit is appended. -/
theorem Holds.absorbByte_append {s : State} {bs : List Byte} (h : s.Holds bs) (hl : bs.length < 55) (b : Byte) :
    absorbByte s b = .next (s.setBuf (cellsFrom 0 (bs ++ [b])) (s.buflen + 1)) := by
  have hlen := (Holds.append h hl.le b).2
  rw [List.length_append, List.length_singleton] at hlen
  rw [absorbByte, h.2, Holds.memWrite_eq h hl.le, andThen_next, if_neg (by rw [hlen, Config.unitBytes_eq]; omega)]

/-- The byte that fills the unit folds it and empties the buffer. -/
theorem Holds.absorbByte_fold {s : State} {bs : List Byte} (h : s.Holds bs) (hl : bs.length = 55) (b : Byte) :
    absorbByte s b = .next (s.setAcc (unitFold s (bs ++ [b]) s.acc)).bufEmpty := by
  have hfull := Holds.append h hl.le b
  have hunit : (bs ++ [b]).length = 56 := by rw [List.length_append, hl, List.length_singleton]
  rw [absorbByte, h.2, Holds.memWrite_eq h hl.le, andThen_next,
    if_pos (by rw [hfull.2, hunit, Config.unitBytes_eq]), Holds.batchFold_eq hfull hunit]
  rfl

/-! ### The loop -/

/-- The loop of UPDATE never stops on a well-formed buffer, and leaves what `State.streamed` says (rule R134). -/
theorem Holds.absorb_eq {s : State} {bs : List Byte} (h : s.Holds bs) (hl : bs.length ≤ 55) (data : List Byte) :
    absorb s data = .next (s.streamed (bs ++ data)) := by
  induction data generalizing s bs with
  | nil => rw [absorb, List.append_nil, streamed_of_holds h hl]
  | cons b data ih =>
    rw [absorb, List.append_cons]
    rcases Nat.lt_or_eq_of_le hl with hlt | hfull
    · have hlen : (bs ++ [b]).length ≤ 55 := by rw [List.length_append, List.length_singleton]; omega
      rw [Holds.absorbByte_append h hlt, andThen_next, ih (Holds.append h hl b) hlen, streamed_setBuf]
    · have hunit : (bs ++ [b]).length = 56 := by rw [List.length_append, hfull, List.length_singleton]
      have hempty : (s.setAcc (unitFold s (bs ++ [b]) s.acc)).bufEmpty.Holds [] := ⟨rfl, rfl⟩
      rw [Holds.absorbByte_fold h hfull, andThen_next, ih hempty (Nat.zero_le 55), List.nil_append,
        streamed_unit_append s hunit]

theorem Holds.exec_update {s : State} {bs : List Byte} (h : s.Holds bs) (hl : bs.length ≤ 55)
    (hp : s.phase = .accumulating) (data : List Byte) :
    exec (.update data) s = .next (respond .ok [] (s.streamed (bs ++ data))) := by
  rw [exec_update_of_accumulating hp, Holds.absorb_eq h hl, andThen_next]

/-! ### Chunks (rule R136) -/

/-- The bytes that follow are taken in from where the loop stands. -/
theorem Holds.streamed_append {s : State} {bs : List Byte} (h : s.Holds bs) (hl : bs.length ≤ 55)
    (a b : List Byte) : (s.streamed (bs ++ a)).streamed (bufferedPart (bs ++ a) ++ b) = s.streamed (bs ++ (a ++ b)) := by
  have hab := absorb_append s a b
  rw [Holds.absorb_eq h hl, Holds.absorb_eq h hl, andThen_next,
    Holds.absorb_eq (streamed_holds s _) (bufferedPart_length_le _), Host.Outcome.next.injEq] at hab
  exact hab.symm

/-- A response given before the loop is not looked at by it. -/
theorem streamed_respond (status : Status) (payload : List Byte) (s : State) (msg : List Byte) :
    (respond status payload s).streamed msg =
      { s.streamed msg with responses := (respond status payload s).responses } := by
  rw [State.streamed, unitsFold_respond]
  rfl

/-- UPDATEs of several chunks leave what the loop leaves on all their bytes, but for the responses. -/
theorem Holds.execAll_updates {s : State} {bs : List Byte} (h : s.Holds bs) (hl : bs.length ≤ 55)
    (hp : s.phase = .accumulating) (chunks : List (List Byte)) :
    ∃ t, execAll exec (chunks.map Instr.update) s = .next t ∧
      t = { s.streamed (bs ++ chunks.flatten) with responses := t.responses } := by
  induction chunks generalizing s bs with
  | nil =>
    refine ⟨s, rfl, ?_⟩
    rw [List.flatten_nil, List.append_nil, streamed_of_holds h hl]
  | cons c chunks ih =>
    obtain ⟨t, hrun, ht⟩ :=
      ih (s := respond .ok [] (s.streamed (bs ++ c))) (streamed_holds s _) (bufferedPart_length_le _) hp
    refine ⟨t, ?_, ?_⟩
    · rw [List.map_cons, execAll, Holds.exec_update h hl hp, andThen_next, hrun]
    · rw [streamed_respond, Holds.streamed_append h hl] at ht
      exact ht

/-- Settles O46: both runs leave what the loop leaves on the concatenation, whose bytes it takes one at a time. -/
theorem chunkInvariance : Obligations.ChunkInvariance := by
  intro s chunks hp hbuf
  obtain ⟨hs, h55⟩ := hbuf
  have hl : s.bufBytes.length ≤ 55 := hs.2 ▸ h55
  obtain ⟨t, hrun, ht⟩ := Holds.execAll_updates hs hl hp chunks
  exact ⟨t, _, hrun, Holds.exec_update hs hl hp _, ht⟩

end Sys2Proof.Machine

/-! What ACC means: BATCHFOLD and Horner's rule on the blocks of a message, modulo P (rules R138, R150, R166). -/

namespace Sys2Proof.Machine

/-! ### The blocks of a message (rule R166) -/

/-- Fuel beyond the bytes changes nothing. -/
theorem blocksOf_eq_of_length_le {f g : Nat} {msg : List Byte} (hf : msg.length ≤ f) (hg : msg.length ≤ g) :
    blocksOf f msg = blocksOf g msg := by
  induction f generalizing g msg with
  | zero =>
    obtain rfl := List.eq_nil_of_length_eq_zero (Nat.le_zero.1 hf)
    cases g <;> rfl
  | succ f ih =>
    cases msg with
    | nil => cases g <;> rfl
    | cons b bs =>
      cases g with
      | zero => exact absurd hg (Nat.not_succ_le_zero _)
      | succ g =>
        rw [List.length_cons] at hf hg
        have hdrop : ((b :: bs).drop 14).length ≤ bs.length := by rw [List.length_drop, List.length_cons]; omega
        rw [blocksOf, blocksOf, ih (g := g) (by omega) (by omega)]

theorem messageBlocks_nil : messageBlocks [] = [] := rfl

/-- The first block, then the blocks of what is left. -/
theorem messageBlocks_of_ne_nil {msg : List Byte} (h : msg ≠ []) :
    messageBlocks msg = msg.take 14 :: messageBlocks (msg.drop 14) := by
  obtain ⟨b, bs, rfl⟩ := List.exists_cons_of_ne_nil h
  have hdrop : ((b :: bs).drop 14).length ≤ bs.length := by rw [List.length_drop, List.length_cons]; omega
  rw [messageBlocks, List.length_cons, blocksOf, messageBlocks, blocksOf_eq_of_length_le hdrop le_rfl]

theorem messageBlocks_block_append {block : List Byte} (h : block.length = 14) (rest : List Byte) :
    messageBlocks (block ++ rest) = block :: messageBlocks rest := by
  have hne : block ++ rest ≠ [] := List.ne_nil_of_length_pos (by rw [List.length_append, h]; omega)
  rw [messageBlocks_of_ne_nil hne, ← h, List.take_left, List.drop_left]

/-- After whole blocks the cut goes on as at the start of a message. -/
theorem messageBlocks_append {whole : List Byte} (h : whole.length % 14 = 0) (rest : List Byte) :
    messageBlocks (whole ++ rest) = messageBlocks whole ++ messageBlocks rest := by
  obtain ⟨count, hcount⟩ := Nat.dvd_of_mod_eq_zero h
  clear h
  induction count generalizing whole with
  | zero =>
    obtain rfl := List.eq_nil_of_length_eq_zero hcount
    rfl
  | succ count ih =>
    have hblock : (whole.take 14).length = 14 := by rw [List.length_take]; omega
    have hdrop : (whole.drop 14).length = 14 * count := by rw [List.length_drop]; omega
    have hne : whole ≠ [] := List.ne_nil_of_length_pos (by omega)
    calc
      messageBlocks (whole ++ rest) = messageBlocks (whole.take 14 ++ (whole.drop 14 ++ rest)) := by
        rw [← List.append_assoc, List.take_append_drop]
      _ = whole.take 14 :: (messageBlocks (whole.drop 14) ++ messageBlocks rest) := by
        rw [messageBlocks_block_append hblock, ih hdrop]
      _ = messageBlocks whole ++ messageBlocks rest := by
        rw [messageBlocks_of_ne_nil hne, List.cons_append]

/-- The four blocks of a unit. -/
theorem messageBlocks_unit {unit : List Byte} (h : unit.length = 56) :
    messageBlocks unit =
      [unit.take 14, (unit.drop 14).take 14, (unit.drop 28).take 14, (unit.drop 42).take 14] := by
  have hstep : ∀ a, a < 56 →
      messageBlocks (unit.drop a) = (unit.drop a).take 14 :: messageBlocks (unit.drop (a + 14)) := fun a ha => by
    rw [messageBlocks_of_ne_nil (List.ne_nil_of_length_pos (by rw [List.length_drop]; omega)), List.drop_drop]
  calc
    messageBlocks unit = unit.take 14 :: messageBlocks (unit.drop 14) := hstep 0 (by decide)
    _ = unit.take 14 :: (unit.drop 14).take 14 :: (unit.drop 28).take 14 :: (unit.drop 42).take 14 ::
        messageBlocks (unit.drop 56) := by
      rw [hstep 14 (by decide), hstep 28 (by decide), hstep 42 (by decide)]
    _ = _ := by rw [List.drop_eq_nil_of_le h.le, messageBlocks_nil]

/-! ### Horner's rule modulo P (rules R138, R166) -/

theorem horner_append (r h : Nat) (as bs : List Nat) : horner r h (as ++ bs) = horner r (horner r h as) bs := by
  induction as generalizing h with
  | nil => rfl
  | cons a as ih => rw [List.cons_append, horner, horner, ih]

/-- The start value counts modulo P only. -/
theorem horner_modEq (r : Nat) {h h' : Nat} (hh : h ≡ h' [MOD Config.prime]) (ms : List Nat) :
    horner r h ms ≡ horner r h' ms [MOD Config.prime] := by
  cases ms with
  | nil => exact hh
  | cons m ms =>
    have hstep : (h + m) * r % Config.prime = (h' + m) * r % Config.prime := (hh.add_right m).mul_right r
    rw [horner, horner, hstep]

theorem horner_cons_modEq (r h m : Nat) (ms : List Nat) :
    horner r h (m :: ms) ≡ horner r ((h + m) * r) ms [MOD Config.prime] :=
  horner_modEq r (Nat.mod_modEq _ _) ms

/-- Rule R150: four steps at once. -/
theorem horner_four_modEq (r h m1 m2 m3 m4 : Nat) :
    horner r h [m1, m2, m3, m4] ≡ (h + m1) * r ^ 4 + m2 * r ^ 3 + m3 * r ^ 2 + m4 * r [MOD Config.prime] :=
  calc
    horner r h [m1, m2, m3, m4] ≡ horner r ((h + m1) * r) [m2, m3, m4] [MOD Config.prime] := horner_cons_modEq ..
    _ ≡ horner r (((h + m1) * r + m2) * r) [m3, m4] [MOD Config.prime] := horner_cons_modEq ..
    _ ≡ horner r ((((h + m1) * r + m2) * r + m3) * r) [m4] [MOD Config.prime] := horner_cons_modEq ..
    _ ≡ ((((h + m1) * r + m2) * r + m3) * r + m4) * r [MOD Config.prime] := horner_cons_modEq ..
    _ = (h + m1) * r ^ 4 + m2 * r ^ 3 + m3 * r ^ 2 + m4 * r := by ring

theorem horner_lt {r h : Nat} (hh : h < Config.prime) (ms : List Nat) : horner r h ms < Config.prime := by
  induction ms generalizing h with
  | nil => exact hh
  | cons m ms ih => exact ih (Nat.mod_lt _ (by decide))

theorem messageHash_lt (r : Nat) (msg : List Byte) : messageHash r msg < Config.prime := horner_lt (by decide) _

/-- The hash of whole blocks and more is Horner's rule on the rest, from the hash of the whole blocks. -/
theorem messageHash_append (r : Nat) {whole : List Byte} (h : whole.length % 14 = 0) (rest : List Byte) :
    messageHash r (whole ++ rest) = horner r (messageHash r whole) ((messageBlocks rest).map blockTerm) := by
  rw [messageHash, messageBlocks_append h, List.map_append, horner_append, messageHash]

/-! ### BATCHFOLD modulo P (rules R106, R150, R151) -/

/-- The sum of BATCHFOLD's four products as FCARRY is given it. -/
def fourSum (p1 p2 p3 p4 : Narrow) : Wide :=
  fieldAdd (fieldAdd (fieldAdd p1.widen p2.widen) p3.widen) p4.widen

theorem fourSum_lanes (p1 p2 p3 p4 : Narrow) :
    (fourSum p1 p2 p3 p4).lanes =
      (p1.l0.toNat + p2.l0.toNat + p3.l0.toNat + p4.l0.toNat,
        p1.l1.toNat + p2.l1.toNat + p3.l1.toNat + p4.l1.toNat) := by
  simp only [fourSum, fieldAdd, Narrow.widen, Wide.lanes, BitVec.toNat_add, limb_setWidth_toNat, Prod.mk.injEq]
  omega

theorem fourSum_bounds (p1 p2 p3 p4 : Narrow) :
    (fourSum p1 p2 p3 p4).lanes.1 < 2 ^ 60 ∧ (fourSum p1 p2 p3 p4).lanes.2 < 2 ^ 60 := by
  rw [fourSum_lanes]
  omega

theorem fourSum_val (p1 p2 p3 p4 : Narrow) : (fourSum p1 p2 p3 p4).val = p1.val + p2.val + p3.val + p4.val := by
  rw [Wide.val_eq_laneVal, fourSum_lanes, laneVal, Narrow.val, Narrow.val, Narrow.val, Narrow.val]
  ring

theorem fieldCarry_fourSum_val_modEq (p1 p2 p3 p4 : Narrow) :
    (fieldCarry (fourSum p1 p2 p3 p4)).narrow.val ≡ p1.val + p2.val + p3.val + p4.val [MOD Config.prime] := by
  obtain ⟨h0, h1⟩ := fourSum_bounds p1 p2 p3 p4
  rw [← fourSum_val]
  exact fieldCarry_narrow_val_mod (by omega) (by omega)

theorem batchValue_eq_fourSum (s : State) (m1 m2 m3 m4 : Narrow) :
    batchValue s m1 m2 m3 m4 =
      (fieldCarry (fourSum (fieldMul (carriedSum s.acc m1) s.pow4) (fieldMul m2 s.pow3) (fieldMul m3 s.pow2)
        (fieldMul m4 s.pow1))).narrow := rfl

/-- With true powers the accumulator of BATCHFOLD is four steps of Horner's rule. -/
theorem batchValue_val_modEq {s : State} (hpow : s.PowersOk) (m1 m2 m3 m4 : Narrow) :
    (batchValue s m1 m2 m3 m4).val ≡
      horner s.r.val s.acc.val [m1.val, m2.val, m3.val, m4.val] [MOD Config.prime] := by
  obtain ⟨h1, h2, h3, h4⟩ := hpow
  have hp1 : (fieldMul (carriedSum s.acc m1) s.pow4).val ≡ (s.acc.val + m1.val) * s.r.val ^ 4 [MOD Config.prime] :=
    (fieldMul_carriedSum_val_mod s.acc m1 s.pow4).trans (Nat.ModEq.mul_left _ h4)
  have hp2 : (fieldMul m2 s.pow3).val ≡ m2.val * s.r.val ^ 3 [MOD Config.prime] :=
    (fieldMul_val_mod m2 s.pow3).trans (Nat.ModEq.mul_left _ h3)
  have hp3 : (fieldMul m3 s.pow2).val ≡ m3.val * s.r.val ^ 2 [MOD Config.prime] :=
    (fieldMul_val_mod m3 s.pow2).trans (Nat.ModEq.mul_left _ h2)
  have hp4 : (fieldMul m4 s.pow1).val ≡ m4.val * s.r.val [MOD Config.prime] := h1 ▸ fieldMul_val_mod m4 s.pow1
  rw [batchValue_eq_fourSum]
  exact (fieldCarry_fourSum_val_modEq ..).trans
    ((((hp1.add hp2).add hp3).add hp4).trans (horner_four_modEq ..).symm)

/-! ### The folds of a byte string modulo P (rules R138, R154) -/

theorem unitBlock_val (unit : List Byte) (j : Nat) :
    (unitBlock unit j).val = blockTerm ((unit.drop (14 * j)).take 14) :=
  split_paddedValue_val (List.length_take_le ..)

theorem unitFold_val_modEq {s : State} (hpow : s.PowersOk) {unit : List Byte} (h : unit.length = 56) (acc : Narrow) :
    (unitFold s unit acc).val ≡
      horner s.r.val acc.val ((messageBlocks unit).map blockTerm) [MOD Config.prime] := by
  have hbatch := batchValue_val_modEq (s := s.setAcc acc) hpow (unitBlock unit 0) (unitBlock unit 1)
    (unitBlock unit 2) (unitBlock unit 3)
  rw [unitBlock_val, unitBlock_val, unitBlock_val, unitBlock_val] at hbatch
  rw [messageBlocks_unit h]
  exact hbatch

theorem unitsFold_val_modEq {s : State} (hpow : s.PowersOk) {count : Nat} {bs : List Byte} (h : 56 * count ≤ bs.length)
    (acc : Narrow) :
    (unitsFold s count bs acc).val ≡
      horner s.r.val acc.val ((messageBlocks (bs.take (56 * count))).map blockTerm) [MOD Config.prime] := by
  induction count generalizing bs acc with
  | zero => exact Nat.ModEq.rfl
  | succ count ih =>
    have hunit : (bs.take 56).length = 56 := by rw [List.length_take]; omega
    have hdrop : 56 * count ≤ (bs.drop 56).length := by rw [List.length_drop]; omega
    have htake : bs.take (56 * (count + 1)) = bs.take 56 ++ (bs.drop 56).take (56 * count) := by
      rw [Nat.mul_succ, Nat.add_comm, List.take_add]
    rw [unitsFold, htake, messageBlocks_append (by rw [hunit]), List.map_append, horner_append]
    exact (ih hdrop _).trans (horner_modEq _ (unitFold_val_modEq hpow hunit acc) _)

/-- The loop of UPDATE adds to ACC the blocks of what it folds. -/
theorem streamed_acc_modEq {s : State} (hpow : s.PowersOk) (msg : List Byte) :
    (s.streamed msg).acc.val ≡
      horner s.r.val s.acc.val ((messageBlocks (foldedPart msg)).map blockTerm) [MOD Config.prime] :=
  unitsFold_val_modEq hpow (Nat.mul_div_le msg.length 56) s.acc

/-! ### The absorbed message (rule R138) -/

theorem messageHash_foldedPart_append (r : Nat) (msg data : List Byte) :
    messageHash r (foldedPart (msg ++ data)) =
      horner r (messageHash r (foldedPart msg))
        ((messageBlocks (foldedPart (bufferedPart msg ++ data))).map blockTerm) := by
  have hblocks : (foldedPart msg).length % 14 = 0 := by rw [foldedPart_length]; omega
  rw [foldedPart_append, messageHash_append r hblocks]

/-- What is absorbed is said by four registers. -/
theorem State.Absorbed.congr {s t : State} {msg : List Byte} (h : s.Absorbed msg) (hacc : t.acc = s.acc)
    (hr : t.r = s.r) (hbuf : t.buf = s.buf) (hbuflen : t.buflen = s.buflen) : t.Absorbed msg := by
  rw [State.Absorbed, State.Holds, hacc, hr, hbuf, hbuflen]
  exact h

theorem initBody_absorbed (key : List Byte) (s : State) : (initBody key s).Absorbed [] := ⟨⟨rfl, rfl⟩, rfl⟩

/-- More bytes through the loop of UPDATE extend the absorbed message. -/
theorem streamed_absorbed {s : State} {msg : List Byte} (hpow : s.PowersOk) (h : s.Absorbed msg) (data : List Byte) :
    (s.streamed (bufferedPart msg ++ data)).Absorbed (msg ++ data) := by
  obtain ⟨hs, hacc⟩ := h
  constructor
  · rw [bufferedPart_append]
    exact streamed_holds s _
  · have hstart : s.acc.val ≡ messageHash s.r.val (foldedPart msg) [MOD Config.prime] := by
      rw [Nat.ModEq, hacc, Nat.mod_eq_of_lt (messageHash_lt ..)]
    calc
      (s.streamed (bufferedPart msg ++ data)).acc.val % Config.prime
        = horner s.r.val (messageHash s.r.val (foldedPart msg))
            ((messageBlocks (foldedPart (bufferedPart msg ++ data))).map blockTerm) % Config.prime :=
          (streamed_acc_modEq hpow _).trans (horner_modEq _ hstart _)
      _ = messageHash s.r.val (foldedPart (msg ++ data)) % Config.prime := by rw [messageHash_foldedPart_append]
      _ = messageHash s.r.val (foldedPart (msg ++ data)) := Nat.mod_eq_of_lt (messageHash_lt ..)

theorem update_extends_absorbed {s t : State} {msg data : List Byte} (hp : s.phase = .accumulating)
    (hpow : s.PowersOk) (h : s.Absorbed msg) (hexec : exec (.update data) s = .next t) : t.Absorbed (msg ++ data) := by
  rw [Holds.exec_update h.1 (bufferedPart_length_le msg) hp, Host.Outcome.next.injEq] at hexec
  subst hexec
  exact (streamed_absorbed hpow h data).congr rfl rfl rfl rfl

/-- An instruction other than UPDATE and a legal INIT, after which the phase is still `Accumulating`, is an error or a
field-unit operation: `ACC`, `R` and the buffer stay. -/
theorem exec_keeps_stream {i : Instr} {s t : State} (hexec : exec i s = .next t) (hp : t.phase = .accumulating)
    (hupdate : ∀ data, i ≠ .update data) (hinit : ∀ key, i = .init key → key.length ≠ 32) :
    t.acc = s.acc ∧ t.r = s.r ∧ t.buf = s.buf ∧ t.buflen = s.buflen := by
  have hcases := exec_eq_next i s t hexec
  cases i with
  | init key =>
    rcases hcases with ⟨-, rfl⟩ | ⟨hlen, -⟩
    · exact ⟨rfl, rfl, rfl, rfl⟩
    · exact absurd hlen (hinit key rfl)
  | update data => exact absurd rfl (hupdate data)
  | final _ | verify _ =>
    rcases hcases with ⟨-, rfl⟩ | ⟨-, -, rfl⟩ | ⟨-, -, u, -, rfl⟩
    · exact ⟨rfl, rfl, rfl, rfl⟩
    · exact ⟨rfl, rfl, rfl, rfl⟩
    · cases hp
  | fadd _ _ | fcarry _ | fmul _ _ | freduce _ => rw [hcases]; exact ⟨rfl, rfl, rfl, rfl⟩

/-- Settles O47: INIT clears ACC and the buffer; the units UPDATE folds are steps of Horner's rule on the next blocks of the
message; every other instruction leaves the four registers alone or ends the message. -/
theorem absorbedMessage : Obligations.AbsorbedMessage := by
  refine ⟨?init, ?update, ?other⟩
  case init =>
    intro key s t hkey hexec
    rw [exec_init_eq_next s hkey, Host.Outcome.next.injEq] at hexec
    exact hexec ▸ initBody_absorbed key s
  case update =>
    intro msg data s t hp hpow h hexec
    exact update_extends_absorbed hp hpow h hexec
  case other =>
    intro msg i s t _ h hexec hp hupdate hinit
    obtain ⟨hacc, hr, hbuf, hbuflen⟩ := exec_keeps_stream hexec hp hupdate hinit
    exact h.congr hacc hr hbuf hbuflen

end Sys2Proof.Machine

/-! BATCHFOLD on four blocks, and BATCHFOLD against four BLOCKFOLDs (rules R150, R151, R154). -/

namespace Sys2Proof.Machine

/-! ### The four blocks of a unit (rule R151) -/

/-- Block `j` of a unit is the block that stands after `14 j` bytes. -/
theorem unitBlock_of_append {pre block : List Byte} {j : Nat} (hpre : pre.length = 14 * j) (hblock : block.length = 14)
    (post : List Byte) : unitBlock (pre ++ block ++ post) j = split (paddedValue block) := by
  rw [unitBlock, ← hpre, ← hblock, List.append_assoc, List.drop_left, List.take_left]

/-- A unit cut into its four blocks is folded by BATCHFOLD's routine on their padded values. -/
theorem unitFold_of_blocks (s : State) {b1 b2 b3 b4 : List Byte} (h1 : b1.length = 14) (h2 : b2.length = 14)
    (h3 : b3.length = 14) (h4 : b4.length = 14) (acc : Narrow) :
    unitFold s (b1 ++ b2 ++ b3 ++ b4) acc =
      batchValue (s.setAcc acc) (split (paddedValue b1)) (split (paddedValue b2)) (split (paddedValue b3))
        (split (paddedValue b4)) := by
  have hb1 : unitBlock (b1 ++ b2 ++ b3 ++ b4) 0 = split (paddedValue b1) := by
    rw [List.append_assoc, List.append_assoc]
    exact unitBlock_of_append (pre := []) rfl h1 _
  have hb2 : unitBlock (b1 ++ b2 ++ b3 ++ b4) 1 = split (paddedValue b2) := by
    rw [List.append_assoc (b1 ++ b2)]
    exact unitBlock_of_append h1 h2 _
  have hb3 : unitBlock (b1 ++ b2 ++ b3 ++ b4) 2 = split (paddedValue b3) :=
    unitBlock_of_append (by rw [List.length_append, h1, h2]) h3 _
  have hb4 : unitBlock (b1 ++ b2 ++ b3 ++ b4) 3 = split (paddedValue b4) := by
    rw [← List.append_nil (b1 ++ b2 ++ b3 ++ b4)]
    exact unitBlock_of_append (by rw [List.length_append, List.length_append, h1, h2, h3]) h4 _
  rw [unitFold, hb1, hb2, hb3, hb4]

/-- Four products stay far below FCARRY's precondition, so BATCHFOLD's result is delivered narrow whole (rule R106). -/
theorem batchValue_widen (s : State) (m1 m2 m3 m4 : Narrow) :
    (batchValue s m1 m2 m3 m4).widen =
      fieldCarry (fourSum (fieldMul (carriedSum s.acc m1) s.pow4) (fieldMul m2 s.pow3) (fieldMul m3 s.pow2)
        (fieldMul m4 s.pow1)) := by
  obtain ⟨h0, h1⟩ := fourSum_bounds (fieldMul (carriedSum s.acc m1) s.pow4) (fieldMul m2 s.pow3) (fieldMul m3 s.pow2)
    (fieldMul m4 s.pow1)
  rw [batchValue_eq_fourSum, fieldCarry_narrow_widen (by omega) (by omega)]

/-- Settles O41: BATCHFOLD reads the four blocks back, no sum wraps, and four steps of Horner's rule are rule R150's
polynomial. -/
theorem batchFoldResult : Obligations.BatchFoldResult := by
  intro s b1 b2 b3 b4 h1 h2 h3 h4 hs
  have hunit : (b1 ++ b2 ++ b3 ++ b4).length = 56 := by simp only [List.length_append, h1, h2, h3, h4]
  have hfold := Holds.batchFold_eq hs hunit
  rw [unitFold_of_blocks s h1 h2 h3 h4] at hfold
  refine ⟨_, _, _, _, _, rfl, rfl, rfl, rfl, batchValue_widen .., hfold, fun hpow => ?_⟩
  have hval := (batchValue_val_modEq hpow (split (paddedValue b1)) (split (paddedValue b2)) (split (paddedValue b3))
    (split (paddedValue b4))).trans (horner_four_modEq ..)
  rw [split_paddedValue_val h1.le, split_paddedValue_val h2.le, split_paddedValue_val h3.le,
    split_paddedValue_val h4.le] at hval
  exact hval

/-! ### BLOCKFOLDs modulo P (rules R133, R138) -/

theorem blocksFold_append (r acc : Narrow) (as bs : List (List Byte)) :
    blocksFold r acc (as ++ bs) = blocksFold r (blocksFold r acc as) bs := by
  induction as generalizing acc with
  | nil => rfl
  | cons a as ih => rw [List.cons_append, blocksFold, blocksFold, ih]

/-- BLOCKFOLDs of blocks in order are steps of Horner's rule. -/
theorem blocksFold_val_modEq (r acc : Narrow) {blocks : List (List Byte)} (h : ∀ block ∈ blocks, block.length ≤ 14) :
    (blocksFold r acc blocks).val ≡ horner r.val acc.val (blocks.map blockTerm) [MOD Config.prime] := by
  induction blocks generalizing acc with
  | nil => exact Nat.ModEq.rfl
  | cons block blocks ih =>
    obtain ⟨hblock, hblocks⟩ := List.forall_mem_cons.1 h
    have hfold := fieldMul_carriedSum_val_mod acc (split (paddedValue block)) r
    rw [split_paddedValue_val hblock] at hfold
    rw [blocksFold, List.map_cons, horner, ← hfold]
    exact (ih _ hblocks).trans (horner_modEq _ (Nat.mod_modEq _ _).symm _)

theorem length_le_of_mem_blocksOf {fuel : Nat} {msg block : List Byte} (h : block ∈ blocksOf fuel msg) :
    block.length ≤ 14 := by
  induction fuel generalizing msg with
  | zero => cases h
  | succ fuel ih =>
    cases msg with
    | nil => cases h
    | cons b bs =>
      rcases List.mem_cons.1 h with rfl | hrest
      · exact List.length_take_le ..
      · exact ih hrest

/-- BLOCKFOLDs of a message's blocks in order, modulo P. -/
theorem blocksFold_messageBlocks_val_modEq (r acc : Narrow) (msg : List Byte) :
    (blocksFold r acc (messageBlocks msg)).val ≡
      horner r.val acc.val ((messageBlocks msg).map blockTerm) [MOD Config.prime] :=
  blocksFold_val_modEq r acc fun _ => length_le_of_mem_blocksOf

/-! ### One BATCHFOLD for four BLOCKFOLDs (rule R154) -/

/-- A write of `ACC` leaves the buffer alone (rule R43). -/
theorem Holds.setAcc {s : State} {bs : List Byte} (h : s.Holds bs) (v : Narrow) : (s.setAcc v).Holds bs := h

/-- The four BLOCKFOLDs of a full buffer: none of them changes what the next one reads. -/
theorem Holds.fourBlockFolds_eq {s : State} {unit : List Byte} (h : s.Holds unit) (hl : unit.length = 56) :
    (andThen (blockFold s 0 14) fun s1 => andThen (blockFold s1 14 14) fun s2 =>
      andThen (blockFold s2 28 14) fun s3 => blockFold s3 42 14) =
      .next (s.setAcc (blocksFold s.r s.acc (messageBlocks unit))) := by
  have hstep : ∀ (acc : Narrow) (a : Nat), a + 14 ≤ 56 → blockFold (s.setAcc acc) a 14 =
      .next (s.setAcc (fieldMul (carriedSum acc (split (paddedValue ((unit.drop a).take 14)))) s.r)) :=
    fun acc a ha => Holds.blockFold_eq (Holds.setAcc h acc) (by decide) (hl ▸ ha) ha
  have hfirst : blockFold s 0 14 = _ := hstep s.acc 0 (by decide)
  rw [hfirst, andThen_next, hstep _ 14 (by decide), andThen_next, hstep _ 28 (by decide), andThen_next,
    hstep _ 42 (by decide), messageBlocks_unit hl]
  rfl

/-- Settles O42: both sides are Horner's rule on the four blocks of the unit. -/
theorem batchEqualsFourBlockFolds : Obligations.BatchEqualsFourBlockFolds := by
  intro s bs hs hlen hpow
  exact ⟨_, _, Holds.batchFold_eq hs hlen, Holds.fourBlockFolds_eq hs hlen,
    (unitFold_val_modEq hpow hlen s.acc).trans (blocksFold_messageBlocks_val_modEq s.r s.acc bs).symm⟩

end Sys2Proof.Machine

/-! TAIL on a buffer that holds a byte string, and the tag bytes it leads to (rules R160, R161). -/

namespace Sys2Proof.Machine

/-! ### TAIL (rule R160) -/

/-- What is left at the end of a message is one block, whole or partial. -/
theorem messageBlocks_of_length_le {msg : List Byte} (hne : msg ≠ []) (h : msg.length ≤ 14) :
    messageBlocks msg = [msg] := by
  rw [messageBlocks_of_ne_nil hne, List.take_of_length_le h, List.drop_eq_nil_of_le h, messageBlocks_nil]

/-- The loop of TAIL folds the whole blocks that stand from block `j` on. -/
theorem Holds.foldWhole_eq {s : State} {bs whole rest : List Byte} {j count : Nat} (h : s.Holds bs)
    (hl : bs.length ≤ 55) (hdrop : bs.drop (14 * j) = whole ++ rest) (hwhole : whole.length = 14 * count) :
    foldWhole s j count = .next (s.setAcc (blocksFold s.r s.acc (messageBlocks whole))) := by
  induction count generalizing s j whole with
  | zero =>
    obtain rfl := List.eq_nil_of_length_eq_zero hwhole
    rfl
  | succ count ih =>
    have hblock : (whole.take 14).length = 14 := by rw [List.length_take]; omega
    have hcut : whole = whole.take 14 ++ whole.drop 14 := (List.take_append_drop 14 whole).symm
    have hlen : 14 * j + 14 ≤ bs.length := by
      have hlengths := congrArg List.length hdrop
      rw [List.length_drop, List.length_append] at hlengths
      omega
    have hread : (bs.drop (14 * j)).take 14 = whole.take 14 := by
      rw [hdrop, List.take_append_of_le_length (by omega)]
    have hnext : bs.drop (14 * (j + 1)) = whole.drop 14 ++ rest := by
      rw [Nat.mul_succ, ← List.drop_drop, hdrop, List.drop_append_of_le_length (by omega)]
    have hdropLen : (whole.drop 14).length = 14 * count := by rw [List.length_drop]; omega
    rw [foldWhole, Holds.blockFold_eq h (by decide) hlen (by omega), andThen_next, hread,
      ih (Holds.setAcc h _) hnext hdropLen]
    conv_rhs => rw [hcut, messageBlocks_block_append hblock]
    rfl

/-- TAIL folds the blocks of what the buffer holds, the last one possibly shorter, and empties it (rule R160). -/
theorem Holds.tail_eq {s : State} {bs : List Byte} (h : s.Holds bs) (hl : bs.length ≤ 55) :
    tail s = .next (s.setAcc (blocksFold s.r s.acc (messageBlocks bs))).bufEmpty := by
  have hwholeLen : (bs.take (14 * (bs.length / 14))).length = 14 * (bs.length / 14) := by rw [List.length_take]; omega
  have hrestLen : (bs.drop (14 * (bs.length / 14))).length = bs.length % 14 := by rw [List.length_drop]; omega
  have hcut := List.take_append_drop (14 * (bs.length / 14)) bs
  have hblocks := messageBlocks_append (whole := bs.take (14 * (bs.length / 14))) (by omega)
    (bs.drop (14 * (bs.length / 14)))
  rw [hcut] at hblocks
  rw [tail, h.2, Holds.foldWhole_eq (j := 0) h hl hcut.symm hwholeLen, andThen_next, hblocks, blocksFold_append]
  split
  case isTrue hnone =>
    obtain hnil := List.eq_nil_of_length_eq_zero (hrestLen.trans hnone)
    rw [hnil]
    rfl
  case isFalse hsome =>
    have hne := List.ne_nil_of_length_pos (hrestLen ▸ Nat.pos_of_ne_zero hsome)
    rw [Holds.blockFold_eq (Holds.setAcc h _) (by omega) (by omega) (by omega), andThen_next,
      List.take_of_length_le hrestLen.le,
      messageBlocks_of_length_le hne (hrestLen.le.trans (Nat.mod_lt _ (by decide)).le)]
    rfl

end Sys2Proof.Machine

/-! The batched engine against the scalar K = 1 engine (rule R155): both keep in `ACC` and the buffer the message absorbed
so far, each with a capacity of its own, and TAIL makes the same hash of it. -/

namespace Sys2Proof.Machine

/-! ### What both engines keep -/

/-- `ACC` stands modulo P for some whole blocks of `msg`, and the buffer holds the rest of it, fewer than `capacity` bytes:
rule R138 for an engine that folds as soon as `capacity` bytes are buffered. -/
def State.Encodes (s : State) (capacity : Nat) (msg : List Byte) : Prop :=
  ∃ folded held : List Byte, folded ++ held = msg ∧ folded.length % 14 = 0 ∧ held.length < capacity ∧ s.Holds held ∧
    s.acc.val ≡ messageHash s.r.val folded [MOD Config.prime]

theorem State.Encodes.mono {s : State} {small large : Nat} {msg : List Byte} (h : s.Encodes small msg)
    (hle : small ≤ large) : s.Encodes large msg := by
  obtain ⟨folded, held, hmsg, hmod, hlt, hrest⟩ := h
  exact ⟨folded, held, hmsg, hmod, hlt.trans_le hle, hrest⟩

/-- What rule R138 says of this hardware's engine. -/
theorem State.Absorbed.encodes {s : State} {msg : List Byte} (h : s.Absorbed msg) : s.Encodes 56 msg := by
  obtain ⟨hs, hacc⟩ := h
  have hblocks : (foldedPart msg).length % 14 = 0 := by rw [foldedPart_length]; omega
  refine ⟨foldedPart msg, bufferedPart msg, foldedPart_append_bufferedPart msg, hblocks,
    Nat.lt_succ_of_le (bufferedPart_length_le msg), hs, ?_⟩
  rw [Nat.ModEq, hacc, Nat.mod_eq_of_lt (messageHash_lt ..)]

/-- TAIL completes the hash of the message, whatever part of it was folded before. -/
theorem State.Encodes.tail_eq {s : State} {msg : List Byte} (h : s.Encodes 56 msg) :
    ∃ v : Narrow, tail s = .next (s.setAcc v).bufEmpty ∧ v.val % Config.prime = messageHash s.r.val msg := by
  obtain ⟨folded, held, rfl, hmod, hlt, hs, hacc⟩ := h
  refine ⟨_, Holds.tail_eq hs (Nat.le_of_lt_succ hlt), ?_⟩
  rw [messageHash_append _ hmod, ← Nat.mod_eq_of_lt (horner_lt (messageHash_lt ..) _)]
  exact (blocksFold_messageBlocks_val_modEq ..).trans (horner_modEq _ hacc _)

/-! ### The loop of the scalar engine -/

/-- `u` is `t` but for `ACC` and the buffer, the registers UPDATE writes (rule R43). -/
def State.SameButStream (t u : State) : Prop := ∃ (v : Narrow) (buf : List Host.Cell) (n : BitVec 6),
  u = (t.setAcc v).setBuf buf n

theorem State.SameButStream.refl (s : State) : s.SameButStream s := ⟨s.acc, s.buf, s.buflen, rfl⟩

theorem State.SameButStream.trans {s t u : State} (h1 : s.SameButStream t) (h2 : t.SameButStream u) :
    s.SameButStream u := by
  obtain ⟨_, _, _, rfl⟩ := h1
  obtain ⟨v, buf, n, rfl⟩ := h2
  exact ⟨v, buf, n, rfl⟩

/-- One BLOCKFOLD takes the hash of whole blocks to the hash of one block more. -/
theorem fieldMul_carriedSum_val_modEq_messageHash {acc r : Narrow} {folded block : List Byte}
    (hacc : acc.val ≡ messageHash r.val folded [MOD Config.prime]) (hmod : folded.length % 14 = 0)
    (hblock : block.length = 14) :
    (fieldMul (carriedSum acc (split (paddedValue block))) r).val ≡
      messageHash r.val (folded ++ block) [MOD Config.prime] := by
  have hne : block ≠ [] := List.ne_nil_of_length_pos (by omega)
  rw [messageHash_append _ hmod, messageBlocks_of_length_le hne hblock.le]
  calc
    (fieldMul (carriedSum acc (split (paddedValue block))) r).val
      ≡ (acc.val + blockTerm block) * r.val [MOD Config.prime] := by
        rw [← split_paddedValue_val hblock.le]
        exact fieldMul_carriedSum_val_mod ..
    _ ≡ (messageHash r.val folded + blockTerm block) * r.val [MOD Config.prime] := (hacc.add_right _).mul_right _
    _ ≡ horner r.val (messageHash r.val folded) [blockTerm block] [MOD Config.prime] := (Nat.mod_modEq _ _).symm

/-- A byte in the scalar engine: the fourteenth folds the block and empties the buffer, any other is appended. -/
theorem State.Encodes.scalarAbsorbByte_eq {s : State} {msg : List Byte} (h : s.Encodes 14 msg) (b : Byte) :
    ∃ t, scalarAbsorbByte s b = .next t ∧ t.Encodes 14 (msg ++ [b]) ∧ s.SameButStream t := by
  obtain ⟨folded, held, rfl, hmod, hlt, hs, hacc⟩ := h
  have hnext := Holds.append hs (by omega) b
  have hlen : (held ++ [b]).length = held.length + 1 := by rw [List.length_append, List.length_singleton]
  rw [scalarAbsorbByte, hs.2, Holds.memWrite_eq hs (by omega), andThen_next]
  split
  case isFalse hpart =>
    rw [hnext.2, Config.blockBytes_eq] at hpart
    exact ⟨_, rfl, ⟨folded, held ++ [b], (List.append_assoc ..).symm, hmod, by omega, hnext, hacc⟩, s.acc, _, _, rfl⟩
  case isTrue hfull =>
    rw [hnext.2, Config.blockBytes_eq] at hfull
    rw [Holds.blockFold_eq hnext (by decide) (by omega) (by decide), List.drop_zero, List.take_of_length_le hfull.le]
    exact ⟨_, rfl, ⟨folded ++ (held ++ [b]), [], by rw [List.append_nil, List.append_assoc],
      by rw [List.length_append]; omega, by decide, ⟨rfl, rfl⟩,
      fieldMul_carriedSum_val_modEq_messageHash hacc hmod hfull⟩, _, _, _, rfl⟩

theorem State.Encodes.scalarAbsorb_eq {s : State} {msg : List Byte} (h : s.Encodes 14 msg) (data : List Byte) :
    ∃ t, scalarAbsorb s data = .next t ∧ t.Encodes 14 (msg ++ data) ∧ s.SameButStream t := by
  induction data generalizing s msg with
  | nil => exact ⟨s, rfl, (List.append_nil msg).symm ▸ h, .refl s⟩
  | cons b data ih =>
    obtain ⟨t, hbyte, ht, hsame⟩ := h.scalarAbsorbByte_eq b
    obtain ⟨u, hloop, hu, hsame'⟩ := ih ht
    refine ⟨u, ?_, List.append_cons .. ▸ hu, hsame.trans hsame'⟩
    rw [scalarAbsorb, hbyte, andThen_next, hloop]

theorem scalarExec_update_of_accumulating {s : State} (h : s.phase = .accumulating) (data : List Byte) :
    scalarExec (.update data) s = andThen (scalarAbsorb s data) fun t => .next (respond .ok [] t) := by
  have hp : phasePermits s.phase = true := (phasePermits_iff s.phase).2 h
  simp only [scalarExec, hp]
  rfl

/-! ### The two engines in step -/

/-- The batched engine in `t` and the scalar engine in `u` have absorbed the same message, and differ only in how it is
encoded. -/
structure EnginesAgree (msg : List Byte) (t u : State) : Prop where
  accumulating : t.phase = .accumulating
  powers : t.PowersOk
  batched : t.Absorbed msg
  scalar : u.Encodes 14 msg
  same : t.SameButStream u

theorem initBody_enginesAgree (key : List Byte) (s : State) :
    EnginesAgree [] (initBody key s) (initBody key s) where
  accumulating := rfl
  powers := keyDerive_powersOk key s
  batched := initBody_absorbed key s
  scalar := ⟨[], [], rfl, rfl, by decide, ⟨rfl, rfl⟩, Nat.ModEq.rfl⟩
  same := .refl _

theorem EnginesAgree.update {msg : List Byte} {t u : State} (h : EnginesAgree msg t u) (data : List Byte) :
    ∃ t' u', exec (.update data) t = .next t' ∧ scalarExec (.update data) u = .next u' ∧
      EnginesAgree (msg ++ data) t' u' := by
  obtain ⟨hp, hpow, hbatched, hscalar, v, buf, n, rfl⟩ := h
  have hexec := Holds.exec_update hbatched.1 (bufferedPart_length_le msg) hp data
  obtain ⟨_, hloop, hw, v', buf', n', rfl⟩ := hscalar.scalarAbsorb_eq data
  have hscalarExec := scalarExec_update_of_accumulating (s := (t.setAcc v).setBuf buf n) hp data
  rw [hloop, andThen_next] at hscalarExec
  refine ⟨_, _, hexec, hscalarExec, ?_⟩
  exact ⟨hp, hpow, update_extends_absorbed hp hpow hbatched hexec, hw, v', buf', n', rfl⟩

theorem EnginesAgree.updates {msg : List Byte} {t u : State} (h : EnginesAgree msg t u) (chunks : List (List Byte)) :
    ∃ t' u', execAll exec (chunks.map Instr.update) t = .next t' ∧
      execAll scalarExec (chunks.map Instr.update) u = .next u' ∧ EnginesAgree (msg ++ chunks.flatten) t' u' := by
  induction chunks generalizing msg t u with
  | nil => exact ⟨t, u, rfl, rfl, (List.append_nil msg).symm ▸ h⟩
  | cons c chunks ih =>
    obtain ⟨t1, u1, ht1, hu1, h1⟩ := h.update c
    obtain ⟨t', u', ht', hu', h'⟩ := ih h1
    refine ⟨t', u', ?_, ?_, by rwa [List.flatten_cons, ← List.append_assoc]⟩
    · rw [List.map_cons, execAll, ht1, andThen_next, ht']
    · rw [List.map_cons, execAll, hu1, andThen_next, hu']

/-! ### FINAL and VERIFY (rules R161, R162, R164) -/

/-- An instruction that ends a message by a response made from its tag (rules R162, R164). -/
def ClosesMessage (last : Instr) : Prop :=
  last = .final [] ∨ ∃ expected : List Byte, expected.length = 16 ∧ last = .verify expected

/-- FINAL, and VERIFY of 16 bytes, pass their checks in `Accumulating` and answer a function of the tag bytes. -/
theorem exec_closing_eq {last : Instr} (hlast : ClosesMessage last) :
    ∃ answer : List Byte → List Byte, ∀ s : State, s.phase = .accumulating →
      exec last s = andThen (tail s) fun t => .next (respond .ok (answer (tagBytesOf t)) (t.setPhase .finalized)) := by
  rcases hlast with rfl | ⟨expected, hlen, rfl⟩
  · refine ⟨id, fun s hp => ?_⟩
    have hpermit : phasePermits s.phase = true := (phasePermits_iff s.phase).2 hp
    simp only [exec, execFinal, hpermit]
    rfl
  · refine ⟨fun tag => [cteq tag expected], fun s hp => ?_⟩
    have hpermit : phasePermits s.phase = true := (phasePermits_iff s.phase).2 hp
    have hlenOk : (expected.length == lenVerify) = true := by rw [hlen]; rfl
    simp only [exec, execVerify, hpermit, hlenOk]
    rfl

/-- FREDUCE picks the one value below P, so the tag sees `ACC` modulo P only. -/
theorem tagBytesOf_congr {s t : State} (hacc : s.acc.val % Config.prime = t.acc.val % Config.prime)
    (hmask : s.mask = t.mask) : tagBytesOf s = tagBytesOf t := by
  rw [tagBytesOf, tagBytesOf, tagValue, tagValue, fieldReduce_val, fieldReduce_val, hacc, hmask]

/-- Engines that agree on the message answer FINAL and VERIFY alike. -/
theorem EnginesAgree.closing {msg : List Byte} {t u : State} (h : EnginesAgree msg t u) {last : Instr}
    (hlast : ClosesMessage last) :
    ∃ t' u', exec last t = .next t' ∧ exec last u = .next u' ∧ t'.responses = u'.responses := by
  obtain ⟨hp, -, hbatched, hscalar, v, buf, n, rfl⟩ := h
  obtain ⟨answer, hexec⟩ := exec_closing_eq hlast
  obtain ⟨vt, htail, hvt⟩ := hbatched.encodes.tail_eq
  obtain ⟨vu, hutail, hvu⟩ := (hscalar.mono (by decide)).tail_eq
  have htag : tagBytesOf (t.setAcc vt).bufEmpty = tagBytesOf (((t.setAcc v).setBuf buf n).setAcc vu).bufEmpty :=
    tagBytesOf_congr (hvt.trans hvu.symm) rfl
  have ht := hexec t hp
  have hu := hexec ((t.setAcc v).setBuf buf n) hp
  rw [htail, andThen_next, htag] at ht
  rw [hutail, andThen_next] at hu
  exact ⟨_, _, ht, hu, rfl⟩

/-- The scalar engine differs in UPDATE only (rule R155). -/
theorem scalarExec_closing {last : Instr} (hlast : ClosesMessage last) (s : State) :
    scalarExec last s = exec last s := by
  rcases hlast with rfl | ⟨_, -, rfl⟩ <;> rfl

/-! ### Whole messages -/

theorem execAll_append (run : Instr → State → Res State) (is js : List Instr) (s : State) :
    execAll run (is ++ js) s = andThen (execAll run is s) (execAll run js) := by
  induction is generalizing s with
  | nil => rfl
  | cons i is ih => simp only [List.cons_append, execAll, andThen_assoc, ih]

theorem execAll_singleton (run : Instr → State → Res State) (i : Instr) (s : State) :
    execAll run [i] s = run i s := by
  rw [execAll]
  cases run i s <;> rfl

/-- Settles O53: the engines agree on the message after INIT, every UPDATE keeps that, and then FINAL and VERIFY answer
alike. -/
theorem batchedEqualsScalarEngine : Obligations.BatchedEqualsScalarEngine := by
  intro s key chunks last hkey hlast
  obtain ⟨t, u, ht, hu, h⟩ := (initBody_enginesAgree key s).updates chunks
  obtain ⟨t', u', ht', hu', hresponses⟩ := h.closing hlast
  have hinit : exec (.init key) s = .next (initBody key s) := exec_init_eq_next s hkey
  have hscalarInit : scalarExec (.init key) s = .next (initBody key s) := hinit
  refine ⟨t', u', ?_, ?_, hresponses⟩
  · rw [execAll_append, execAll, hinit, andThen_next, ht, andThen_next, execAll_singleton, ht']
  · rw [execAll_append, execAll, hscalarInit, andThen_next, hu, andThen_next, execAll_singleton,
      scalarExec_closing hlast, hu']

end Sys2Proof.Machine

/-! FINAL: TAIL, the tag bytes, and the tag of a whole message (rules R138, R160 to R162, R166, R168). -/

namespace Sys2Proof.Machine

/-! ### TAIL's accumulator (rule R160) -/

/-- Settles O43: TAIL's folds are BLOCKFOLDs of the blocks in order, each one a step of Horner's rule modulo P. -/
theorem tailResult : Obligations.TailResult := by
  intro s bs hs hl
  exact ⟨_, Holds.tail_eq hs hl, rfl, blocksFold_messageBlocks_val_modEq s.r s.acc bs⟩

/-! ### The tag bytes and FINAL (rules R161, R162) -/

/-- The tag bytes see `ACC` modulo P and `S`, and their sum wraps at 128 bits. -/
theorem tagBytesOf_eq (s : State) :
    tagBytesOf s = toLE 16 ((s.acc.val % Config.prime + s.mask.toNat) % 2 ^ 128) := by
  rw [tagBytesOf, tagValue, BitVec.toNat_add, BitVec.toNat_ofNat, fieldReduce_val, Nat.mod_add_mod]

/-- FINAL of `LEN` 0 passes its checks in `Accumulating` (rules R87, R162). -/
theorem exec_final_of_accumulating {s : State} (h : s.phase = .accumulating) :
    exec (.final []) s = finalBody s := by
  have hp : phasePermits s.phase = true := (phasePermits_iff s.phase).2 h
  simp only [exec, execFinal, hp]
  rfl

/-- FINAL where TAIL leaves `v` in `ACC`: the tag is made from `v`, which stays there unreduced (rules R161, R168). -/
theorem exec_final_of_tail {s : State} {v : Narrow} (hp : s.phase = .accumulating)
    (htail : tail s = .next (s.setAcc v).bufEmpty) :
    exec (.final []) s =
      .next (respond .ok (toLE 16 ((v.val % Config.prime + s.mask.toNat) % 2 ^ 128))
        ((s.setAcc v).bufEmpty.setPhase .finalized)) := by
  rw [exec_final_of_accumulating hp, finalBody, htail, andThen_next, tagBytesOf_eq]
  rfl

/-- Settles O48: FINAL's checks pass, TAIL folds what is buffered, and FREDUCE takes the result modulo P. -/
theorem finalResult : Obligations.FinalResult := by
  intro s bs hp hs hl
  refine ⟨_, rfl, blocksFold_messageBlocks_val_modEq s.r s.acc bs, ?_⟩
  rw [exec_final_of_tail hp (Holds.tail_eq hs hl), respond, toLE_length]
  rfl

/-! ### The tag of a message (rule R166) -/

/-- Horner's rule is the sum of the terms, each times its power of `r`, with the start value in front of them. -/
theorem horner_modEq_powerSum (r h : Nat) (ms : List Nat) :
    horner r h ms ≡ h * r ^ ms.length + powerSum r ms [MOD Config.prime] := by
  induction ms generalizing h with
  | nil => rw [horner, powerSum, List.length_nil, Nat.pow_zero, Nat.mul_one, Nat.add_zero]
  | cons m ms ih =>
    calc
      horner r h (m :: ms) ≡ horner r ((h + m) * r) ms [MOD Config.prime] := horner_cons_modEq ..
      _ ≡ (h + m) * r * r ^ ms.length + powerSum r ms [MOD Config.prime] := ih _
      _ = h * r ^ (m :: ms).length + powerSum r (m :: ms) := by rw [powerSum, List.length_cons]; ring

theorem messageHash_eq_powerSum (r : Nat) (msg : List Byte) :
    messageHash r msg = powerSum r ((messageBlocks msg).map blockTerm) % Config.prime := by
  have hsum := horner_modEq_powerSum r 0 ((messageBlocks msg).map blockTerm)
  rw [Nat.zero_mul, Nat.zero_add] at hsum
  exact (Nat.mod_eq_of_lt (messageHash_lt r msg)).symm.trans hsum

/-- INIT and UPDATEs of any chunks leave what the loop of UPDATE leaves on all their bytes, which are the message absorbed
(rules R131, R134, R138). -/
theorem execAll_init_updates (s : State) {key : List Byte} (hkey : key.length = 32) (chunks : List (List Byte)) :
    ∃ t, execAll exec (.init key :: chunks.map Instr.update) s = .next t ∧
      t = { (initBody key s).streamed chunks.flatten with responses := t.responses } ∧
      t.Absorbed chunks.flatten := by
  have hempty := initBody_absorbed key s
  have hpow : (initBody key s).PowersOk := keyDerive_powersOk key s
  obtain ⟨t, hrun, ht⟩ := Holds.execAll_updates hempty.1 (Nat.zero_le 55) rfl chunks
  refine ⟨t, ?_, ht, ?_⟩
  · rw [execAll, exec_init_eq_next s hkey, andThen_next, hrun]
  · rw [ht]
    exact (streamed_absorbed hpow hempty chunks.flatten).congr rfl rfl rfl rfl

/-- The hash and `S` of KEYDERIVE make the tag; `S` is `s` cut to 128 bits, as the sum is. -/
theorem toLE_hash_add_mask (key msg : List Byte) (s : State) :
    toLE 16 ((messageHash (evalKey key) msg + (keyDerive key s).mask.toNat) % 2 ^ 128) = macTag key msg := by
  rw [keyDerive_mask, BitVec.toNat_ofNat, Nat.add_mod_mod, macTag]

/-- Settles O51: after INIT and the UPDATEs the whole message is absorbed, so TAIL completes its hash under the key INIT
loaded, and FINAL adds `S`. -/
theorem tagOfMessage : Obligations.TagOfMessage := by
  refine ⟨fun s key chunks hkey => ?_, messageHash_eq_powerSum⟩
  obtain ⟨t, hrun, ht, habs⟩ := execAll_init_updates s hkey chunks
  obtain ⟨v, htail, hv⟩ := habs.encodes.tail_eq
  have hphase : t.phase = .accumulating := by rw [ht]; rfl
  have herr : t.err = s.err := by rw [ht]; rfl
  have hmask : t.mask = (keyDerive key s).mask := by rw [ht]; rfl
  have hr : t.r.val = evalKey key := by rw [ht]; exact keyDerive_r_val key s
  have hfinal := exec_final_of_tail hphase htail
  rw [hv, hr, hmask, toLE_hash_add_mask] at hfinal
  refine ⟨_, by rw [execAll_append, hrun, andThen_next, execAll_singleton, hfinal], ?_⟩
  rw [respond, State.pushResponse_responses, List.getLast?_concat, ← herr, macTag, toLE_length]
  rfl

end Sys2Proof.Machine

/-! CTEQ: the zero test of the OR of the bytewise XORs (rule R163). -/

namespace Sys2Proof.Machine

/-- The OR of the XORs is zero when it starts at zero and no byte differs. -/
theorem cteqDiff_eq_zero_iff {t e : List Byte} (h : t.length = e.length) (diff : Byte) :
    cteqDiff diff t e = 0#8 ↔ diff = 0#8 ∧ t = e := by
  induction t generalizing e diff with
  | nil =>
    obtain rfl := List.eq_nil_of_length_eq_zero h.symm
    simp only [cteqDiff, and_true]
  | cons x t ih =>
    cases e with
    | nil => cases h
    | cons y e =>
      rw [cteqDiff, ih (Nat.succ.inj h), BitVec.or_eq_zero_iff, BitVec.xor_eq_zero_iff, List.cons.injEq, and_assoc]

/-- On 9 bits the subtraction of 1 borrows into bit 8 for zero alone (log entry 17). -/
theorem zeroTest_eq (diff : Byte) :
    (((diff.setWidth 9 - 1#9) >>> 8) &&& 1#9).setWidth 8 = if diff = 0#8 then (1 : Byte) else 0 := by
  split
  case isTrue h => rw [h]; rfl
  case isFalse h =>
    have hshift : (diff.setWidth 9 - 1#9) >>> 8 = 0#9 := by bv_omega
    rw [hshift]
    rfl

/-- Settles O50: the zero test answers whether any byte differs. -/
theorem cteqIsEquality : Obligations.CteqIsEquality := by
  intro t e hlen
  have hdiff : cteqDiff 0#8 t e = 0#8 ↔ t = e := by rw [cteqDiff_eq_zero_iff hlen, eq_self, true_and]
  rw [cteq, zeroTest_eq]
  exact if_congr hdiff rfl rfl

end Sys2Proof.Machine

/-! The error responses: an unassigned opcode, USAGE_LENGTH and USAGE_PHASE, and the `STATUS` field that tells which
errors a command never answers with (rules R76, R77, R182 to R187). -/

namespace Sys2Proof.Machine

/-! ### `STATUS` in a response header (rules R76, R77) -/

/-- `STATUS` is bits 7:0 of `RH`. -/
theorem responseHeader_status (status : Status) (phase : Phase) (err : Bool) (rlen : BitVec 8) :
    (responseHeader status phase err rlen).toNat % 256 = (statusCode status).toNat := by
  have hlow : (responseHeader status phase err rlen).setWidth 8 = statusCode status :=
    BitVec.setWidth_append_eq_right
  rw [← hlow, BitVec.toNat_setWidth]

/-- The response that `respond` appends carries the status it was given. -/
theorem status_of_respond {status : Status} {payload : List Byte} {s : State} {rsp : Response}
    (h : (respond status payload s).responses = s.responses ++ [rsp]) :
    rsp.header.toNat % 256 = (statusCode status).toNat := by
  rw [respond_responses, List.append_cancel_left_eq, List.singleton_inj] at h
  rw [← h, responseHeader_status]

/-! ### ILLEGAL_OPCODE (rule R184) -/

theorem decodeOpcode_of_unassigned {op : BitVec 8} (h : op.toNat = 0 ∨ 5 ≤ op.toNat) (payload : List Byte) :
    decodeOpcode op payload = .error .illegalOpcode := by
  obtain ⟨hinit, hupdate, hfinal, hverify⟩ := opcode_cases op
  rw [decodeOpcode, if_neg (mt hinit.1 (by omega)), if_neg (mt hupdate.1 (by omega)),
    if_neg (mt hfinal.1 (by omega)), if_neg (mt hverify.1 (by omega))]

theorem step_of_illegalOpcode {s : State} {ch : Header} {payload : List Byte} {later : List HostEvent}
    (hissue : s.fuIssue = none) (hinbox : s.inbox = .command ch payload :: later)
    (hdecode : decode (.command ch payload) = .error .illegalOpcode) :
    step s = .next (raiseError .illegalOpcode (s.setInbox later)) := by
  simp only [step, fetch, hissue, hinbox, fetchEvent, hdecode]

/-- Settles O10: the command is whole and none of the four opcodes of rule R73 is its own, so the step takes it and
raises ILLEGAL_OPCODE. -/
theorem illegalOpcodeStep : Obligations.IllegalOpcodeStep := by
  intro s ch payload later hissue hinbox hwhole hop
  rw [← opcodeOf_toNat] at hop
  have hdecode : decode (.command ch payload) = .error .illegalOpcode := by
    rw [decode, decodeCommand, if_pos hwhole, decodeOpcode_of_unassigned hop]
  rw [step_of_illegalOpcode hissue hinbox hdecode]
  rfl

/-! ### The checks of LEN and PHASE (rules R87, R182, R183, R187) -/

/-- A wrong `LEN` is answered before the phase is looked at. -/
theorem checked_of_length_ne {payload : List Byte} {legal : Nat} (h : payload.length ≠ legal) (phaseOk : Bool)
    (s : State) (body : Res State) :
    checked (payload.length == legal) phaseOk s body = .next (raiseError .usageLength s) := by
  rw [beq_false_of_ne h]
  rfl

theorem checked_of_not_accumulating {payload : List Byte} {legal : Nat} (h : payload.length = legal) {s : State}
    (hp : s.phase ≠ .accumulating) (body : Res State) :
    checked (payload.length == legal) (phasePermits s.phase) s body = .next (raiseError .usagePhase s) := by
  rw [beq_iff_eq.2 h, Bool.eq_false_iff.2 (mt (phasePermits_iff s.phase).1 hp)]
  rfl

/-- UPDATE has no `LEN` check to fail: its response is OK or USAGE_PHASE. -/
theorem exec_update_status {payload : List Byte} {s t : State} {rsp : Response}
    (hexec : exec (.update payload) s = .next t) (hrsp : t.responses = s.responses ++ [rsp]) :
    rsp.header.toNat % 256 = (statusCode .ok).toNat ∨ rsp.header.toNat % 256 = (statusCode .usagePhase).toNat := by
  rcases exec_eq_next _ s t hexec with ⟨-, rfl⟩ | ⟨-, u, habsorb, rfl⟩
  · exact .inr (status_of_respond hrsp)
  · have hkept : u.responses = s.responses := by rw [absorb_frame habsorb]
    rw [← hkept] at hrsp
    exact .inl (status_of_respond hrsp)

/-- INIT has no phase check to fail: its response is OK or USAGE_LENGTH. -/
theorem exec_init_status {payload : List Byte} {s t : State} {rsp : Response}
    (hexec : exec (.init payload) s = .next t) (hrsp : t.responses = s.responses ++ [rsp]) :
    rsp.header.toNat % 256 = (statusCode .ok).toNat ∨ rsp.header.toNat % 256 = (statusCode .usageLength).toNat := by
  rcases exec_eq_next _ s t hexec with ⟨-, rfl⟩ | ⟨-, rfl⟩
  · exact .inr (status_of_respond hrsp)
  · exact .inl (status_of_respond hrsp)

/-- Settles O21: the three commands with one legal `LEN` check it first; UPDATE answers 0x00 or 0x01 only. -/
theorem usageLengthError : Obligations.UsageLengthError := by
  refine ⟨?raised, ?update⟩
  case raised =>
    rintro payload s i (⟨rfl, hlen⟩ | ⟨rfl, hlen⟩ | ⟨rfl, hlen⟩)
    · exact checked_of_length_ne hlen ..
    · exact checked_of_length_ne hlen ..
    · exact checked_of_length_ne hlen ..
  case update =>
    intro payload s t rsp hexec hrsp
    rcases exec_update_status hexec hrsp with hstatus | hstatus
    · rw [hstatus]; decide
    · rw [hstatus]; decide

/-- Settles O22: with `LEN` legal, the phase check is the one that fails; INIT answers 0x00 or 0x02 only. -/
theorem usagePhaseError : Obligations.UsagePhaseError := by
  refine ⟨?raised, ?init⟩
  case raised =>
    rintro payload s i hp (rfl | ⟨rfl, hlen⟩ | ⟨rfl, hlen⟩)
    · exact exec_update_of_not_accumulating hp payload
    · exact checked_of_not_accumulating hlen hp _
    · exact checked_of_not_accumulating hlen hp _
  case init =>
    intro payload s t rsp hexec hrsp
    rcases exec_init_status hexec hrsp with hstatus | hstatus
    · rw [hstatus]; decide
    · rw [hstatus]; decide

end Sys2Proof.Machine

/-! Decoding against encoding: the command header with its payload, the opcode map, and the field unit's codes
(rules R70, R71, R73, R79, R80, R81). -/

namespace Sys2Proof

/-! ### The opcode map (rule R73) -/

section
variable (payload : List Byte)

@[simp] theorem decodeOpcode_opInit : decodeOpcode opInit payload = .ok (.init payload) := rfl
@[simp] theorem decodeOpcode_opUpdate : decodeOpcode opUpdate payload = .ok (.update payload) := rfl
@[simp] theorem decodeOpcode_opFinal : decodeOpcode opFinal payload = .ok (.final payload) := rfl
@[simp] theorem decodeOpcode_opVerify : decodeOpcode opVerify payload = .ok (.verify payload) := rfl

end

/-- Inversion of the opcode map: an opcode that selects a command is one of the four. -/
theorem decodeOpcode_eq_ok {op : BitVec 8} {payload : List Byte} {i : Instr} (h : decodeOpcode op payload = .ok i) :
    (op = opInit ∧ i = .init payload) ∨ (op = opUpdate ∧ i = .update payload) ∨
      (op = opFinal ∧ i = .final payload) ∨ (op = opVerify ∧ i = .verify payload) := by
  unfold decodeOpcode at h
  split at h
  case isTrue hop => cases h; exact .inl ⟨hop, rfl⟩
  split at h
  case isTrue hop => cases h; exact .inr (.inl ⟨hop, rfl⟩)
  split at h
  case isTrue hop => cases h; exact .inr (.inr (.inl ⟨hop, rfl⟩))
  split at h
  case isTrue hop => cases h; exact .inr (.inr (.inr ⟨hop, rfl⟩))
  cases h

/-- The opcodes and the field-unit codes are both assigned from 1 to 4. -/
theorem unassigned_of_ne {n : Nat} (h1 : n ≠ 1) (h2 : n ≠ 2) (h3 : n ≠ 3) (h4 : n ≠ 4) : n = 0 ∨ 5 ≤ n := by
  omega

/-- Every opcode is one of the four or unassigned (rules R73, R80). -/
theorem opcode_assigned_or_not (op : BitVec 8) :
    op = opInit ∨ op = opUpdate ∨ op = opFinal ∨ op = opVerify ∨ op.toNat = 0 ∨ 5 ≤ op.toNat := by
  obtain ⟨hinit, hupdate, hfinal, hverify⟩ := opcode_cases op
  rw [hinit, hupdate, hfinal, hverify]
  omega

/-! ### Commands (rule R71) -/

/-- A whole command is decoded by its opcode alone. -/
theorem decode_command_of_whole {ch : Header} {payload : List Byte} (h : payload.length = (lenOf ch).toNat) :
    decode (.command ch payload) = decodeOpcode (opcodeOf ch) payload := by
  rw [decode, decodeCommand, if_pos h]

theorem decode_command_of_length_ne {ch : Header} {payload : List Byte} (h : payload.length ≠ (lenOf ch).toNat) :
    decode (.command ch payload) = .error .payloadLength := by
  rw [decode, decodeCommand, if_neg h]

/-- Only whole commands decode. -/
theorem decode_command_eq_ok {ch : Header} {payload : List Byte} {i : Instr}
    (h : decode (.command ch payload) = .ok i) :
    payload.length = (lenOf ch).toNat ∧ decodeOpcode (opcodeOf ch) payload = .ok i := by
  by_cases hlen : payload.length = (lenOf ch).toNat
  · exact ⟨hlen, decode_command_of_whole hlen ▸ h⟩
  · rw [decode_command_of_length_ne hlen] at h
    cases h

/-- A payload that fits `LEN` is whole under the header made for it. -/
theorem lenOf_commandHeader_length {payload : List Byte} (h : lenFits payload = true) (op : BitVec 8) :
    (lenOf (commandHeader op (BitVec.ofNat 24 payload.length))).toNat = payload.length := by
  rw [lenOf_commandHeader, BitVec.toNat_ofNat, Nat.mod_eq_of_lt ((lenFits_iff payload).1 h)]

theorem decode_encodeCommand {payload : List Byte} (h : lenFits payload = true) (op : BitVec 8) :
    decode (encodeCommand op payload) = decodeOpcode op payload := by
  rw [encodeCommand, decode_command_of_whole (lenOf_commandHeader_length h op).symm, opcodeOf_commandHeader]

/-- Settles O1: a header gives back the opcode and the `LEN` it was made with, and `LEN` holds the length of every
payload that fits; a field-unit issue stands for its code. -/
theorem decodeOfEncode : Obligations.DecodeOfEncode := by
  intro i hwf
  cases i with
  | init payload => rw [encode, decode_encodeCommand hwf, decodeOpcode_opInit]
  | update payload => rw [encode, decode_encodeCommand hwf, decodeOpcode_opUpdate]
  | final payload => rw [encode, decode_encodeCommand hwf, decodeOpcode_opFinal]
  | verify payload => rw [encode, decode_encodeCommand hwf, decodeOpcode_opVerify]
  | fadd a b => rfl
  | fcarry a => rfl
  | fmul a b => rfl
  | freduce a => rfl

theorem encode_of_decodeOpcode {op : BitVec 8} {payload : List Byte} {i : Instr}
    (h : decodeOpcode op payload = .ok i) : encode i = encodeCommand op payload ∧ i.wellFormed = lenFits payload := by
  rcases decodeOpcode_eq_ok h with ⟨rfl, rfl⟩ | ⟨rfl, rfl⟩ | ⟨rfl, rfl⟩ | ⟨rfl, rfl⟩
  · exact ⟨rfl, rfl⟩
  · exact ⟨rfl, rfl⟩
  · exact ⟨rfl, rfl⟩
  · exact ⟨rfl, rfl⟩

/-- Settles O2: the header is its two fields, and both are read off from what was decoded. -/
theorem encodeOfDecodedCommand : Obligations.EncodeOfDecodedCommand := by
  intro ch payload i h
  obtain ⟨hlen, hop⟩ := decode_command_eq_ok h
  obtain ⟨hencode, hwf⟩ := encode_of_decodeOpcode hop
  have hfits : lenFits payload = true := by rw [lenFits_iff, hlen]; exact (lenOf ch).isLt
  refine ⟨?_, hwf.trans hfits⟩
  rw [hencode, encodeCommand, hlen, BitVec.ofNat_toNat, BitVec.setWidth_eq, commandHeader_eta]

/-- Settles O5: the opcode is the header modulo 256, and `decodeOpcode` looks for four values of it. -/
theorem opcodeMap : Obligations.OpcodeMap := by
  intro ch payload hlen
  obtain ⟨hinit, hupdate, hfinal, hverify⟩ := opcode_cases (opcodeOf ch)
  rw [decode_command_of_whole hlen, ← opcodeOf_toNat]
  split
  case h_1 h => rw [hinit.2 h, decodeOpcode_opInit]
  case h_2 h => rw [hupdate.2 h, decodeOpcode_opUpdate]
  case h_3 h => rw [hfinal.2 h, decodeOpcode_opFinal]
  case h_4 h => rw [hverify.2 h, decodeOpcode_opVerify]
  case h_5 h1 h2 h3 h4 =>
    exact Machine.decodeOpcode_of_unassigned (unassigned_of_ne h1 h2 h3 h4) payload

/-! ### The field unit's codes (rules R79, R81) -/

/-- The codes of rule R79 as numbers. -/
theorem fuCode_cases (code : BitVec 3) :
    (code = fuFadd ↔ code.toNat = 1) ∧ (code = fuFcarry ↔ code.toNat = 2) ∧
    (code = fuFmul ↔ code.toNat = 3) ∧ (code = fuFreduce ↔ code.toNat = 4) := by
  simp only [← BitVec.toNat_inj]
  exact ⟨Iff.rfl, Iff.rfl, Iff.rfl, Iff.rfl⟩

theorem decodeFieldUnit_of_reserved {f : FuIssue} (h : f.code.toNat = 0 ∨ 5 ≤ f.code.toNat) :
    decodeFieldUnit f = .error .reservedFuOp := by
  obtain ⟨hadd, hcarry, hmul, hreduce⟩ := fuCode_cases f.code
  rw [decodeFieldUnit, if_neg (mt hadd.1 (by omega)), if_neg (mt hcarry.1 (by omega)), if_neg (mt hmul.1 (by omega)),
    if_neg (mt hreduce.1 (by omega))]

/-- Settles O6: `decodeFieldUnit` compares the code with the four assigned ones in turn. -/
theorem fieldUnitCodes : Obligations.FieldUnitCodes := by
  rintro ⟨code, a, b, x, y⟩
  obtain ⟨hadd, hcarry, hmul, hreduce⟩ := fuCode_cases code
  dsimp only
  split
  case h_1 h => rw [hadd.2 h]; rfl
  case h_2 h => rw [hcarry.2 h]; rfl
  case h_3 h => rw [hmul.2 h]; rfl
  case h_4 h => rw [hreduce.2 h]; rfl
  case h_5 h1 h2 h3 h4 =>
    exact decodeFieldUnit_of_reserved (f := ⟨code, a, b, x, y⟩) (unassigned_of_ne h1 h2 h3 h4)

/-! ### Written words (rule R75 and 95_test_vectors.md section 9) -/

/-- Four written bytes that are a header's, and after them its payload to the end. -/
theorem decodeBytes_of_headerBytes {bytes payload : List Byte} {i : Instr} (ch : Header)
    (hbytes : toLE 4 ch.toNat = bytes) (hdecode : decode (.command ch payload) = .ok i) :
    decodeBytes (bytes ++ payload) = (.ok i, []) := by
  obtain ⟨hlen, -⟩ := decode_command_eq_ok hdecode
  rw [← hbytes, decodeBytes_headerBytes_append ch hlen.ge, ← hlen, List.take_length, List.drop_length]
  exact congrArg (·, []) hdecode

/-- Settles O4: the headers 0x00002001 and 0x00001004 announce 32 and 16 bytes; the other words are read off. -/
theorem writtenWordsDecode : Obligations.WrittenWordsDecode := by
  refine ⟨fun key hkey => ?init, rfl, rfl, fun tag htag => ?verify, rfl, fun a b x y => ⟨rfl, rfl, rfl, rfl⟩⟩
  case init => exact decodeBytes_of_headerBytes 0x00002001 rfl (decode_command_of_whole hkey)
  case verify => exact decodeBytes_of_headerBytes 0x00001004 rfl (decode_command_of_whole htag)

end Sys2Proof

/-! The fields of the response header (rules R76, R77). -/

namespace Sys2Proof.Machine

/-- A concatenation as a number: the right part below, the left part above it. -/
theorem toNat_append_eq_add {m n : Nat} (x : BitVec m) (y : BitVec n) :
    (x ++ y).toNat = y.toNat + 2 ^ n * x.toNat := by
  rw [BitVec.toNat_append, Nat.shiftLeft_eq, Nat.mul_comm, ← Nat.two_pow_add_eq_or_of_lt y.isLt, Nat.add_comm]

/-- `RH` as a number: each field at the weight of its lowest bit. -/
theorem responseHeader_toNat (status : Status) (phase : Phase) (err : Bool) (rlen : BitVec 8) :
    (responseHeader status phase err rlen).toNat =
      (statusCode status).toNat + 2 ^ 8 * (phaseCode phase).toNat + 2 ^ 10 * err.toNat + 2 ^ 16 * rlen.toNat := by
  simp only [responseHeader, toNat_append_eq_add, BitVec.toNat_ofBool, BitVec.ofNat_eq_ofNat, BitVec.toNat_ofNat]
  omega

/-- Settles O25: every field is below the weight of the next one. -/
theorem responseHeaderFields : Obligations.ResponseHeaderFields := by
  intro status phase err rlen
  have hstatus := (statusCode status).isLt
  have hphase := (phaseCode phase).isLt
  have herr := err.toNat_lt
  have hrlen := rlen.isLt
  dsimp only
  rw [responseHeader_toNat]
  refine ⟨?statusField, ?phaseField, ?errField, ?low, ?rlenField, ?high⟩
  case statusField =>
    calc
      _ = (statusCode status).toNat := by omega
      _ = _ := by cases status <;> rfl
  case phaseField =>
    calc
      _ = (phaseCode phase).toNat := by omega
      _ = _ := by cases phase <;> rfl
  case errField =>
    calc
      _ = err.toNat := by omega
      _ = _ := by cases err <;> rfl
  case low => omega
  case rlenField => omega
  case high => omega

end Sys2Proof.Machine

/-! One step, by what there is to take: a field-unit issue, a Reset, a command, or nothing (rules R13, R71, R79, R197,
R210). -/

namespace Sys2Proof.Machine

/-! ### What a step does -/

theorem step_of_issue {s : State} {f : FuIssue} {i : Instr} (hissue : s.fuIssue = some f)
    (hdecode : decode (.fieldUnit f) = .ok i) : step s = exec i (s.setFuIssue none) := by
  simp only [step, fetch, hissue, fetchIssue, hdecode]

theorem step_of_reserved_issue {s : State} {f : FuIssue} {e : DecodeError} (hissue : s.fuIssue = some f)
    (hdecode : decode (.fieldUnit f) = .error e) : step s = .refused .fieldUnitIssue := by
  simp only [step, fetch, hissue, fetchIssue, hdecode]

section
variable {s : State} (hissue : s.fuIssue = none)
include hissue

theorem step_of_waiting (hinbox : s.inbox = []) : step s = .next s := by
  simp only [step, fetch, hissue, hinbox]

theorem step_of_reset {later : List HostEvent} (hinbox : s.inbox = .reset :: later) :
    step s = .next (applyReset s later) := by
  simp only [step, fetch, hissue, hinbox, fetchEvent]

theorem step_of_command {ch : Header} {payload : List Byte} {later : List HostEvent} {i : Instr}
    (hinbox : s.inbox = .command ch payload :: later) (hdecode : decode (.command ch payload) = .ok i) :
    step s = exec i (s.setInbox later) := by
  simp only [step, fetch, hissue, hinbox, fetchEvent, hdecode]

theorem step_of_partial {ch : Header} {payload : List Byte} {later : List HostEvent}
    (hinbox : s.inbox = .command ch payload :: later) (hlen : payload.length ≠ (lenOf ch).toNat) :
    step s = .refused .partialCommand := by
  simp only [step, fetch, hissue, hinbox, fetchEvent, decode_command_of_length_ne hlen]

end

/-- Settles O7: the fetch finds the event first in the inbox and takes it. -/
theorem stepRunsDecodedCommand : Obligations.StepRunsDecodedCommand :=
  fun _ _ _ _ _ hissue hinbox hdecode => step_of_command hissue hinbox hdecode

/-- Settles O8: the fetch looks at the port first and takes the issue. -/
theorem stepRunsDecodedFieldUnitIssue : Obligations.StepRunsDecodedFieldUnitIssue :=
  fun _ _ _ hissue hdecode => step_of_issue hissue hdecode

/-- What is placed is what the step takes; taking it undoes the placing but for a field-unit issue that waited. -/
theorem step_place {e : Encoding} {i : Instr} (s : State) (hdecode : decode e = .ok i) :
    step (place s e) = exec i (s.setFuIssue none) := by
  cases e with
  | command ch payload =>
    exact step_of_command (s := place s (.command ch payload)) (later := s.inbox) rfl rfl hdecode
  | fieldUnit f => exact step_of_issue (s := place s (.fieldUnit f)) rfl hdecode

theorem decode_of_decodeTableWord {nbits w : Nat} {i : Instr} (h : decodeTableWord nbits w = some i) :
    decode (tableEncoding nbits w) = .ok i := by
  rw [decodeTableWord] at h
  cases hdecode : decode (tableEncoding nbits w) with
  | ok j => rw [hdecode] at h; cases h; rfl
  | error e => rw [hdecode] at h; cases h

/-- Settles O9: a table word is placed as its encoding. -/
theorem stepRunsPlacedWord : Obligations.StepRunsPlacedWord :=
  fun s _ _ _ h => step_place s (decode_of_decodeTableWord h)

/-- Settles O11: `applyReset` keeps the two streams and takes every register from `State.reset`. -/
theorem resetStep : Obligations.ResetStep := by
  intro s later hissue hinbox
  refine ⟨applyReset s later, step_of_reset hissue hinbox, ?zeroed, rfl, rfl, rfl, rfl, rfl, rfl⟩
  case zeroed => exact ⟨rfl, rfl, rfl, rfl, rfl, rfl, rfl, rfl, rfl⟩

/-- Settles O12: the fetch has nothing to do and hands the state back. -/
theorem waitingStepHoldsState : Obligations.WaitingStepHoldsState :=
  fun _ hissue hinbox => step_of_waiting hissue hinbox

/-- Settles O15: the port and the inbox are empty at reset, so the fetch waits. -/
theorem resetValues : Obligations.ResetValues := by
  refine ⟨⟨rfl, rfl, rfl, rfl, rfl, rfl, rfl, rfl, rfl⟩, rfl, rfl, fun i t h => ?waits⟩
  case waits => cases h

/-! ### Field-unit operations (rules R79, R108) -/

/-- A field-unit operation completes in every state and writes its result lanes alone. -/
theorem exec_of_not_command {i : Instr} (h : isCommand i = false) (s : State) :
    ∃ w, exec i s = .next (s.setFuOut w) := by
  cases i with
  | init _ | update _ | final _ | verify _ => cases h
  | fadd _ _ | fcarry _ | fmul _ _ | freduce _ => exact ⟨_, rfl⟩

/-- What a field-unit issue decodes to is no command. -/
theorem isCommand_of_decode_fieldUnit {f : FuIssue} {i : Instr} (h : decode (.fieldUnit f) = .ok i) :
    isCommand i = false := by
  rw [fieldUnitCodes f] at h
  split at h <;> cases h <;> rfl

/-- A code from 1 to 4 is assigned. -/
theorem exists_decode_fieldUnit {f : FuIssue} (h1 : 1 ≤ f.code.toNat) (h4 : f.code.toNat ≤ 4) :
    ∃ i, decode (.fieldUnit f) = .ok i := by
  have hcode : f.code.toNat = 1 ∨ f.code.toNat = 2 ∨ f.code.toNat = 3 ∨ f.code.toNat = 4 := by omega
  have hdecode := fieldUnitCodes f
  rcases hcode with h | h | h | h
  · rw [h] at hdecode; exact ⟨_, hdecode⟩
  · rw [h] at hdecode; exact ⟨_, hdecode⟩
  · rw [h] at hdecode; exact ⟨_, hdecode⟩
  · rw [h] at hdecode; exact ⟨_, hdecode⟩

/-- A field-unit issue that decodes is taken, and its result put on the lanes. -/
theorem step_of_issue_eq {s : State} {f : FuIssue} {i : Instr} (hissue : s.fuIssue = some f)
    (hdecode : decode (.fieldUnit f) = .ok i) : ∃ w, step s = .next ((s.setFuIssue none).setFuOut w) := by
  obtain ⟨w, hexec⟩ := exec_of_not_command (isCommand_of_decode_fieldUnit hdecode) (s.setFuIssue none)
  exact ⟨w, (step_of_issue hissue hdecode).trans hexec⟩

/-- Settles O13: decoding fails for a wrong payload length and for the reserved codes, and nowhere else for an issue. -/
theorem stepRefusesBrokenInputs : Obligations.StepRefusesBrokenInputs := by
  refine ⟨?payload, ?reserved, ?assigned⟩
  case payload => exact fun s ch payload later hissue hinbox hlen => step_of_partial hissue hinbox hlen
  case reserved => exact fun s f hissue hcode => step_of_reserved_issue hissue (decodeFieldUnit_of_reserved hcode)
  case assigned =>
    intro s f hissue h1 h4
    obtain ⟨i, hdecode⟩ := exists_decode_fieldUnit h1 h4
    exact step_of_issue_eq hissue hdecode

end Sys2Proof.Machine

/-! What an instruction answers: the check it fails, or the writes of its body. From this follow the write map, the
phase table, the one response per command and what its header can tell (rules R35, R43, R76, R87, R130, R186). -/

namespace Sys2Proof.Machine

/-! ### The checks of a command (rule R87) -/

/-- `LEN` is legal for the opcode (rule R74); a field-unit operation has none to check. -/
def lenOk : Instr → Bool
  | .init payload => payload.length == lenInit
  | .final payload => payload.length == lenFinal
  | .verify payload => payload.length == lenVerify
  | _ => true

/-- The phase permits the command (rule R182). -/
def phaseOk (phase : Phase) : Instr → Bool
  | .update _ => phasePermits phase
  | .final _ => phasePermits phase
  | .verify _ => phasePermits phase
  | _ => true

/-- The error an instruction answers with in a phase, if it fails a check. -/
def failedCheck (phase : Phase) (i : Instr) : Option Status := firstFailure (lenOk i) (phaseOk phase i)

theorem firstFailure_eq_none {lenOk phaseOk : Bool} :
    firstFailure lenOk phaseOk = none ↔ lenOk = true ∧ phaseOk = true := by
  cases lenOk <;> cases phaseOk <;> decide

theorem firstFailure_ne_ok (lenOk phaseOk : Bool) : firstFailure lenOk phaseOk ≠ some .ok := by
  cases lenOk <;> cases phaseOk <;> decide

section
variable (phase : Phase) (payload : List Byte)

@[simp] theorem failedCheck_init : failedCheck phase (.init payload) = none ↔ payload.length = 32 := by
  simp [failedCheck, firstFailure_eq_none, lenOk, phaseOk, lenInit]

@[simp] theorem failedCheck_update : failedCheck phase (.update payload) = none ↔ phase = .accumulating := by
  simp [failedCheck, firstFailure_eq_none, lenOk, phaseOk]

@[simp] theorem failedCheck_final :
    failedCheck phase (.final payload) = none ↔ payload.length = 0 ∧ phase = .accumulating := by
  simp [failedCheck, firstFailure_eq_none, lenOk, phaseOk, lenFinal]

@[simp] theorem failedCheck_verify :
    failedCheck phase (.verify payload) = none ↔ payload.length = 16 ∧ phase = .accumulating := by
  simp [failedCheck, firstFailure_eq_none, lenOk, phaseOk, lenVerify]

theorem failedCheck_of_not_command {i : Instr} (h : isCommand i = false) : failedCheck phase i = none := by
  cases i with
  | init _ | update _ | final _ | verify _ => cases h
  | fadd _ _ | fcarry _ | fmul _ _ | freduce _ => rfl

end

/-! ### The answers (rules R43, R186) -/

/-- What instruction `i` can make of `s`: the first failed check raised, or, with no check failed, the registers of
rule R43's write map written and the response of the body given. -/
inductive Answers (s : State) : Instr → State → Prop where
  | error (i : Instr) (status : Status) (hcommand : isCommand i = true) (hfail : failedCheck s.phase i = some status) :
      Answers s i (raiseError status s)
  | init (key : List Byte) (hpass : failedCheck s.phase (.init key) = none) : Answers s (.init key) (initBody key s)
  | update (data : List Byte) (hpass : failedCheck s.phase (.update data) = none) (acc : Narrow) (buf : List Host.Cell)
      (buflen : BitVec 6) : Answers s (.update data) (respond .ok [] ((s.setAcc acc).setBuf buf buflen))
  | final (payload : List Byte) (hpass : failedCheck s.phase (.final payload) = none) (acc : Narrow) (tag : List Byte)
      (htag : tag.length = 16) :
      Answers s (.final payload) (respond .ok tag ((s.setAcc acc).bufEmpty.setPhase .finalized))
  | verify (expected : List Byte) (hpass : failedCheck s.phase (.verify expected) = none) (acc : Narrow)
      (result : Byte) :
      Answers s (.verify expected) (respond .ok [result] ((s.setAcc acc).bufEmpty.setPhase .finalized))
  | fieldUnit (i : Instr) (hcommand : isCommand i = false) (w : Wide) : Answers s i (s.setFuOut w)

theorem tagBytesOf_length (s : State) : (tagBytesOf s).length = 16 := toLE_length ..

/-- A check that fails, as `exec_eq_next` writes it, is `failedCheck`. -/
theorem failedCheck_of_length_ne {phase : Phase} {i : Instr} (h : lenOk i = false) :
    failedCheck phase i = some .usageLength := by
  rw [failedCheck, h]
  rfl

theorem failedCheck_of_phase {phase : Phase} {i : Instr} (hlen : lenOk i = true) (h : phaseOk phase i = false) :
    failedCheck phase i = some .usagePhase := by
  rw [failedCheck, hlen, h]
  rfl

theorem phasePermits_eq_false {phase : Phase} (h : phase ≠ .accumulating) : phasePermits phase = false :=
  Bool.eq_false_iff.2 (mt (phasePermits_iff phase).1 h)

/-- Every next state of `exec` is one of the answers. -/
theorem exec_answers {i : Instr} {s t : State} (h : exec i s = .next t) : Answers s i t := by
  have hcases := exec_eq_next i s t h
  cases i with
  | init key =>
    rcases hcases with ⟨hlen, rfl⟩ | ⟨hlen, rfl⟩
    · exact .error _ _ rfl (failedCheck_of_length_ne (beq_false_of_ne hlen))
    · exact .init key ((failedCheck_init ..).2 hlen)
  | update data =>
    rcases hcases with ⟨hp, rfl⟩ | ⟨hp, u, habsorb, rfl⟩
    · exact .error _ _ rfl (failedCheck_of_phase rfl (phasePermits_eq_false hp))
    · rw [absorb_frame habsorb]
      exact .update data ((failedCheck_update ..).2 hp) ..
  | final payload =>
    rcases hcases with ⟨hlen, rfl⟩ | ⟨hlen, hp, rfl⟩ | ⟨hlen, hp, u, htail, rfl⟩
    · exact .error _ _ rfl (failedCheck_of_length_ne (beq_false_of_ne hlen))
    · exact .error _ _ rfl (failedCheck_of_phase (beq_iff_eq.2 hlen) (phasePermits_eq_false hp))
    · have htag := tagBytesOf_length u
      generalize tagBytesOf u = tag at htag ⊢
      rw [tail_frame htail]
      exact .final payload ((failedCheck_final ..).2 ⟨hlen, hp⟩) _ tag htag
  | verify expected =>
    rcases hcases with ⟨hlen, rfl⟩ | ⟨hlen, hp, rfl⟩ | ⟨hlen, hp, u, htail, rfl⟩
    · exact .error _ _ rfl (failedCheck_of_length_ne (beq_false_of_ne hlen))
    · exact .error _ _ rfl (failedCheck_of_phase (beq_iff_eq.2 hlen) (phasePermits_eq_false hp))
    · generalize cteq (tagBytesOf u) expected = result
      rw [tail_frame htail]
      exact .verify expected ((failedCheck_verify ..).2 ⟨hlen, hp⟩) _ result
  | fadd _ _ | fcarry _ | fmul _ _ | freduce _ => rw [hcases]; exact .fieldUnit _ rfl _

/-! ### The write map (rule R43) -/

/-- Settles O20: read off from the answers, in which only INIT's body writes the key registers. -/
theorem writeMap : Obligations.WriteMap := by
  intro i s t h
  cases exec_answers h with
  | error _ status hcommand hfail =>
    refine ⟨rfl, rfl, fun _ => rfl, fun _ => ⟨rfl, rfl, rfl, rfl, rfl, rfl⟩, fun _ _ => rfl, fun hnot => ?_⟩
    rw [hcommand] at hnot; cases hnot
  | init key hpass =>
    exact ⟨rfl, rfl, fun _ => rfl, fun hkey => absurd ((failedCheck_init ..).1 hpass) (hkey key rfl), nofun, nofun⟩
  | update data hpass =>
    exact ⟨rfl, rfl, fun _ => rfl, fun _ => ⟨rfl, rfl, rfl, rfl, rfl, rfl⟩, fun _ _ => rfl, nofun⟩
  | final => exact ⟨rfl, rfl, fun _ => rfl, fun _ => ⟨rfl, rfl, rfl, rfl, rfl, rfl⟩, nofun, nofun⟩
  | verify => exact ⟨rfl, rfl, fun _ => rfl, fun _ => ⟨rfl, rfl, rfl, rfl, rfl, rfl⟩, nofun, nofun⟩
  | fieldUnit _ hcommand w =>
    refine ⟨rfl, rfl, fun hnot => ?_, fun _ => ⟨rfl, rfl, rfl, rfl, rfl, rfl⟩, fun _ _ => rfl,
      fun _ => ⟨rfl, rfl, rfl, rfl, rfl, rfl⟩⟩
    rw [hcommand] at hnot; cases hnot

/-! ### PHASE and ERR (rules R35, R130) -/

/-- The phase an instruction that fails no check leaves (rule R130). -/
def phaseOfBody (phase : Phase) : Instr → Phase
  | .init _ => .accumulating
  | .final _ => .finalized
  | .verify _ => .finalized
  | _ => phase

/-- The phase after an instruction (rule R130). -/
def phaseAfter (phase : Phase) (i : Instr) : Phase :=
  if failedCheck phase i = none then phaseOfBody phase i else phase

theorem phaseOfBody_of_not_command {phase : Phase} {i : Instr} (h : isCommand i = false) :
    phaseOfBody phase i = phase := by
  cases i with
  | init _ | update _ | final _ | verify _ => cases h
  | fadd _ _ | fcarry _ | fmul _ _ | freduce _ => rfl

theorem exec_phase {i : Instr} {s t : State} (h : exec i s = .next t) : t.phase = phaseAfter s.phase i := by
  cases exec_answers h with
  | error _ status _ hfail => rw [phaseAfter, if_neg (by rw [hfail]; nofun)]; rfl
  | init _ hpass => rw [phaseAfter, if_pos hpass]; rfl
  | update _ hpass => rw [phaseAfter, if_pos hpass]; rfl
  | final _ hpass => rw [phaseAfter, if_pos hpass]; rfl
  | verify _ hpass => rw [phaseAfter, if_pos hpass]; rfl
  | fieldUnit _ hcommand w =>
    rw [phaseAfter, if_pos (failedCheck_of_not_command _ hcommand), phaseOfBody_of_not_command hcommand]; rfl

/-- An instruction sets ERR when it fails a check, and never clears it. -/
theorem exec_err {i : Instr} {s t : State} (h : exec i s = .next t) :
    t.err = (s.err || (failedCheck s.phase i).isSome) := by
  cases exec_answers h with
  | error _ status _ hfail => rw [hfail, Option.isSome_some, Bool.or_true]; rfl
  | init _ hpass => rw [hpass, Option.isSome_none, Bool.or_false]; rfl
  | update _ hpass => rw [hpass, Option.isSome_none, Bool.or_false]; rfl
  | final _ hpass => rw [hpass, Option.isSome_none, Bool.or_false]; rfl
  | verify _ hpass => rw [hpass, Option.isSome_none, Bool.or_false]; rfl
  | fieldUnit _ hcommand w =>
    rw [failedCheck_of_not_command _ hcommand, Option.isSome_none, Bool.or_false]; rfl

theorem exec_err_of_err {i : Instr} {s t : State} (h : exec i s = .next t) (herr : s.err = true) : t.err = true := by
  rw [exec_err h, herr, Bool.true_or]

/-- Settles O19: of the five things a step can do, only the Reset writes ERR with anything but 1. -/
theorem errIsSticky : Obligations.ErrIsSticky := by
  intro s t h herr
  rcases step_eq_next s t h with ⟨_, _, _, _, hexec⟩ | ⟨_, _, rfl⟩ | ⟨later, hissue, hinbox, _⟩ |
    ⟨_, _, _, _, _, _, _, hexec⟩ | ⟨_, _, _, _, _, _, rfl⟩
  · exact .inl (exec_err_of_err hexec herr)
  · exact .inl herr
  · exact .inr ⟨hissue, later, hinbox⟩
  · exact .inl (exec_err_of_err hexec herr)
  · exact .inl rfl

/-- Settles O23: the phase after an instruction is `phaseAfter`; Reset's is `Idle`, and raising an error keeps it. -/
theorem phaseTable : Obligations.PhaseTable := by
  refine ⟨?exec, ?reset, ?illegal⟩
  case exec =>
    intro i s t h
    rw [exec_phase h, phaseAfter]
    cases i with
    | init _ => exact if_congr (failedCheck_init ..) rfl rfl
    | update _ => exact ite_self _
    | final _ => exact if_congr (failedCheck_final ..) rfl rfl
    | verify _ => exact if_congr (failedCheck_verify ..) rfl rfl
    | fadd _ _ | fcarry _ | fmul _ _ | freduce _ => rfl
  case reset =>
    intro s t later hissue hinbox h
    rw [step_of_reset hissue hinbox] at h
    cases h; rfl
  case illegal =>
    intro s t ch payload later hissue hinbox hdecode h
    rw [step_of_illegalOpcode hissue hinbox hdecode] at h
    cases h; rfl

/-! ### The response (rules R76, R78, R186, R198) -/

/-- The payload bytes of an OK response (rule R78). -/
def answerLength : Instr → Nat
  | .final _ => 16
  | .verify _ => 1
  | _ => 0

/-- A command that fails a check is answered by the error, and nothing else happens. -/
theorem exec_of_failedCheck {i : Instr} {s t : State} {status : Status} (h : exec i s = .next t)
    (hfail : failedCheck s.phase i = some status) : t = raiseError status s := by
  cases exec_answers h with
  | error _ _ _ hfail' => rw [hfail, Option.some.injEq] at hfail'; rw [hfail']
  | init _ hpass => rw [hfail] at hpass; cases hpass
  | update _ hpass => rw [hfail] at hpass; cases hpass
  | final _ hpass => rw [hfail] at hpass; cases hpass
  | verify _ hpass => rw [hfail] at hpass; cases hpass
  | fieldUnit _ hcommand _ => rw [failedCheck_of_not_command _ hcommand] at hfail; cases hfail

/-- A command that fails no check is answered by an OK with the payload of its kind. -/
theorem exec_responses_of_pass {i : Instr} {s t : State} (hcommand : isCommand i = true) (h : exec i s = .next t)
    (hpass : failedCheck s.phase i = none) :
    ∃ payload, t.responses = s.responses ++
        [⟨responseHeader .ok t.phase t.err (BitVec.ofNat 8 payload.length), payload⟩] ∧
      payload.length = answerLength i := by
  cases exec_answers h with
  | error _ _ _ hfail => rw [hfail] at hpass; cases hpass
  | init => exact ⟨[], rfl, rfl⟩
  | update => exact ⟨[], rfl, rfl⟩
  | final _ _ _ tag htag => exact ⟨tag, rfl, htag⟩
  | verify _ _ _ result => exact ⟨[result], rfl, rfl⟩
  | fieldUnit _ hnot _ => rw [hnot] at hcommand; cases hcommand

/-- Settles O24: the answer of a failed check, or of the body. -/
theorem oneResponsePerCommand : Obligations.OneResponsePerCommand := by
  intro i s t hcommand h
  cases hcheck : failedCheck s.phase i with
  | some status =>
    have hne : status ≠ .ok := fun heq => firstFailure_ne_ok _ _ (heq ▸ hcheck)
    obtain rfl := exec_of_failedCheck h hcheck
    exact ⟨status, [], rfl, fun _ => ⟨rfl, rfl⟩, fun heq => absurd heq hne⟩
  | none =>
    obtain ⟨payload, hresponses, hlen⟩ := exec_responses_of_pass hcommand h hcheck
    refine ⟨.ok, payload, hresponses, fun hne => absurd rfl hne, fun _ => ⟨?err, ?length⟩⟩
    case err => rw [exec_err h, hcheck, Option.isSome_none, Bool.or_false]
    case length => rw [hlen]; cases i <;> rfl

/-! ### What a header tells (rules R14, R192) -/

/-- The status, the phase and `RLEN` of the response, from the phase before and the instruction's kind and `LEN`. -/
theorem exec_header {i : Instr} {s t : State} (hcommand : isCommand i = true) (h : exec i s = .next t) :
    t.responses.getLast?.map Response.header =
      some (responseHeader ((failedCheck s.phase i).getD .ok) (phaseAfter s.phase i)
        (s.err || (failedCheck s.phase i).isSome)
        (BitVec.ofNat 8 (if failedCheck s.phase i = none then answerLength i else 0))) := by
  rw [← exec_phase h, ← exec_err h]
  cases hcheck : failedCheck s.phase i with
  | some status =>
    obtain rfl := exec_of_failedCheck h hcheck
    rw [raiseError_responses, List.getLast?_concat]
    rfl
  | none =>
    obtain ⟨payload, hresponses, hlen⟩ := exec_responses_of_pass hcommand h hcheck
    rw [hresponses, List.getLast?_concat, ← hlen]
    rfl

/-- Two commands with one header are of one kind and one length, so they fail the same check and mean the same phase
and the same number of bytes. -/
theorem observables_of_same_header {ch : Header} {p q : List Byte} {i j : Instr}
    (hi : decode (.command ch p) = .ok i) (hj : decode (.command ch q) = .ok j) :
    isCommand i = true ∧ isCommand j = true ∧ answerLength i = answerLength j ∧
      ∀ phase, failedCheck phase i = failedCheck phase j ∧ phaseOfBody phase i = phaseOfBody phase j := by
  obtain ⟨hp, hi⟩ := decode_command_eq_ok hi
  obtain ⟨hq, hj⟩ := decode_command_eq_ok hj
  have hlen : p.length = q.length := hp.trans hq.symm
  rcases decodeOpcode_eq_ok hi with ⟨hop, rfl⟩ | ⟨hop, rfl⟩ | ⟨hop, rfl⟩ | ⟨hop, rfl⟩
  · rw [hop, decodeOpcode_opInit] at hj; cases hj
    exact ⟨rfl, rfl, rfl, fun phase => ⟨by rw [failedCheck, failedCheck, lenOk, lenOk, hlen]; rfl, rfl⟩⟩
  · rw [hop, decodeOpcode_opUpdate] at hj; cases hj
    exact ⟨rfl, rfl, rfl, fun phase => ⟨rfl, rfl⟩⟩
  · rw [hop, decodeOpcode_opFinal] at hj; cases hj
    exact ⟨rfl, rfl, rfl, fun phase => ⟨by rw [failedCheck, failedCheck, lenOk, lenOk, hlen]; rfl, rfl⟩⟩
  · rw [hop, decodeOpcode_opVerify] at hj; cases hj
    exact ⟨rfl, rfl, rfl, fun phase => ⟨by rw [failedCheck, failedCheck, lenOk, lenOk, hlen]; rfl, rfl⟩⟩

/-- Settles O26: everything in the header of a response, and PHASE and ERR after it, comes from what the two runs have
in common. -/
theorem headersTellNoSecrets : Obligations.HeadersTellNoSecrets := by
  intro i j ch p q s u t v hi hj hphase herr ht hv
  obtain ⟨hcommandi, hcommandj, hanswer, hsame⟩ := observables_of_same_header hi hj
  obtain ⟨hcheck, hbody⟩ := hsame u.phase
  have hafter : phaseAfter u.phase i = phaseAfter u.phase j := by rw [phaseAfter, phaseAfter, hcheck, hbody]
  refine ⟨?headerSame, ?phaseSame, ?errSame⟩
  case headerSame => rw [exec_header hcommandi ht, exec_header hcommandj hv, hphase, herr, hcheck, hafter, hanswer]
  case phaseSame => rw [exec_phase ht, exec_phase hv, hphase, hafter]
  case errSame => rw [exec_err ht, exec_err hv, herr, hphase, hcheck]

end Sys2Proof.Machine

/-! The invariant of rule R42 and the canonical form of the buffer's cells: they hold at reset, every step keeps them,
and from a state that meets the invariant every whole input completes (rules R41, R42, R50, R220). -/

namespace Sys2Proof.Machine

/-! ### The invariant, by what a step writes (rule R42) -/

theorem Holds.bufOk {s : State} {bs : List Byte} (h : s.Holds bs) (hl : bs.length ≤ 55) : s.BufOk := by
  have hbytes : s.bufBytes = bs := by rw [State.bufBytes, h.1, cellsFrom_bytes]
  exact ⟨hbytes.symm ▸ h, h.2 ▸ hl⟩

theorem BufOk.length_le {s : State} (h : s.BufOk) : s.bufBytes.length ≤ 55 := h.1.2 ▸ h.2

theorem applyReset_inv (s : State) (later : List HostEvent) : (applyReset s later).Inv :=
  ⟨Nat.two_pow_pos 54, ⟨rfl, rfl, rfl, rfl⟩, Holds.bufOk (bs := []) ⟨rfl, rfl⟩ (Nat.zero_le 55),
    fun _ => ⟨rfl, rfl, rfl, rfl, rfl, rfl, rfl, rfl, rfl⟩⟩

/-- Settles O16: every register is zero and the buffer empty, and the powers of 0 are 0. -/
theorem invAtReset : Obligations.InvAtReset := ⟨applyReset_inv State.reset [], reset_wf⟩

/-- INIT establishes the invariant whatever stood before it. -/
theorem initBody_inv (key : List Byte) (s : State) : (initBody key s).Inv :=
  ⟨keyDerive_r_l1_lt key s, keyDerive_powersOk key s, Holds.bufOk (initBody_absorbed key s).1 (Nat.zero_le 55), nofun⟩

/-- Outside `Idle` the accumulator is free, and so are the buffer's bytes up to 55. -/
theorem State.Inv.of_same_key {s t : State} {bs : List Byte} (h : s.Inv) (hr : t.r = s.r) (h1 : t.pow1 = s.pow1)
    (h2 : t.pow2 = s.pow2) (h3 : t.pow3 = s.pow3) (h4 : t.pow4 = s.pow4) (hs : t.Holds bs) (hl : bs.length ≤ 55)
    (hphase : t.phase ≠ .idle) : t.Inv := by
  obtain ⟨hlt, hpow, -, -⟩ := h
  refine ⟨by rwa [hr], ?_, Holds.bufOk hs hl, fun hidle => absurd hidle hphase⟩
  rwa [State.PowersOk, hr, h1, h2, h3, h4]

/-- A message closed with any accumulator and any response. -/
theorem closed_inv {s : State} (h : s.Inv) (acc : Narrow) (status : Status) (payload : List Byte) :
    (respond status payload ((s.setAcc acc).bufEmpty.setPhase .finalized)).Inv :=
  h.of_same_key (bs := []) rfl rfl rfl rfl rfl ⟨rfl, rfl⟩ (Nat.zero_le 55) nofun

/-- No instruction breaks the invariant: an error and a field-unit operation write none of its registers, and the
three bodies each leave a buffer of at most 55 bytes and a phase other than `Idle`. -/
theorem exec_inv {i : Instr} {s t : State} (h : s.Inv) (hexec : exec i s = .next t) : t.Inv := by
  obtain ⟨-, -, hbuf, -⟩ := id h
  cases exec_answers hexec with
  | error => exact h
  | init key => exact initBody_inv key s
  | update data hpass =>
    have hp : s.phase = .accumulating := (failedCheck_update ..).1 hpass
    rw [Holds.exec_update hbuf.1 (BufOk.length_le hbuf) hp, Host.Outcome.next.injEq] at hexec
    rw [← hexec]
    have hphase : s.phase ≠ .idle := by rw [hp]; nofun
    exact h.of_same_key (bs := bufferedPart (s.bufBytes ++ data)) rfl rfl rfl rfl rfl (streamed_holds s _)
      (bufferedPart_length_le _) hphase
  | final => exact closed_inv h ..
  | verify => exact closed_inv h ..
  | fieldUnit => exact h

/-- Settles O17: taking an input writes none of the invariant's registers, and then an instruction, a Reset, an error or
nothing happens. -/
theorem stepKeepsInv : Obligations.StepKeepsInv := by
  intro s t h hstep
  rcases step_eq_next s t hstep with ⟨_, _, _, _, hexec⟩ | ⟨_, _, rfl⟩ | ⟨later, _, _, rfl⟩ |
    ⟨_, _, later, _, _, _, _, hexec⟩ | ⟨_, _, later, _, _, _, rfl⟩
  · exact exec_inv (s := s.setFuIssue none) h hexec
  · exact h
  · exact applyReset_inv s later
  · exact exec_inv (s := s.setInbox later) h hexec
  · exact h

/-! ### The canonical form of the buffer's cells (rule R50, log entry 7) -/

/-- A byte of UPDATE is written at an address below 56, or the buffer is emptied after it. -/
theorem absorbByte_wf {s t : State} {b : Byte} (hm : Memory.wf s.buf = true) (h : absorbByte s b = .next t) :
    Memory.wf t.buf = true := by
  simp only [absorbByte, andThen_eq_next] at h
  obtain ⟨s1, hwrite, h⟩ := h
  split at h
  case isTrue =>
    simp only [andThen_eq_next, Host.Outcome.next.injEq] at h
    obtain ⟨s2, -, rfl⟩ := h
    exact bufEmpty_wf s2
  case isFalse =>
    cases h
    exact memWrite_wf hwrite hm

theorem absorb_wf {s t : State} {bs : List Byte} (hm : Memory.wf s.buf = true) (h : absorb s bs = .next t) :
    Memory.wf t.buf = true := by
  induction bs generalizing s with
  | nil => cases h; exact hm
  | cons b bs ih =>
    rw [absorb, andThen_eq_next] at h
    obtain ⟨s1, hbyte, hloop⟩ := h
    exact ih (absorbByte_wf hm hbyte) hloop

/-- UPDATE is the only instruction that writes cells; INIT, FINAL and VERIFY take all of them away. -/
theorem exec_wf {i : Instr} {s t : State} (hm : Memory.wf s.buf = true) (hexec : exec i s = .next t) :
    Memory.wf t.buf = true := by
  cases exec_answers hexec with
  | error => exact hm
  | init => exact wf_nil
  | update data hpass =>
    rw [exec_update_of_accumulating ((failedCheck_update ..).1 hpass), andThen_eq_next] at hexec
    obtain ⟨u, habsorb, hrespond⟩ := hexec
    rw [Host.Outcome.next.injEq] at hrespond
    rw [← hrespond]
    exact absorb_wf (t := u) hm habsorb
  | final => exact wf_nil
  | verify => exact wf_nil
  | fieldUnit => exact hm

/-- Settles O18: outside instructions only a Reset touches the buffer, and it empties it. -/
theorem stepKeepsBufferForm : Obligations.StepKeepsBufferForm := by
  intro s t hm hstep
  rcases step_eq_next s t hstep with ⟨_, _, _, _, hexec⟩ | ⟨_, _, rfl⟩ | ⟨_, _, _, rfl⟩ |
    ⟨_, _, later, _, _, _, _, hexec⟩ | ⟨_, _, _, _, _, _, rfl⟩
  · exact exec_wf (s := s.setFuIssue none) hm hexec
  · exact hm
  · exact wf_nil
  · exact exec_wf (s := s.setInbox later) hm hexec
  · exact hm

/-! ### Whole inputs complete (rules R13, R220) -/

/-- A command completes if its body does, since an error is a next state. -/
theorem checked_completes {body : Res State} (h : ∃ t, body = .next t) (lenOk phaseOk : Bool) (s : State) :
    ∃ t, checked lenOk phaseOk s body = .next t := by
  rcases checked_cases lenOk phaseOk s body with ⟨-, hchecked⟩ | ⟨-, -, hchecked⟩ | ⟨-, -, hchecked⟩
  · exact ⟨_, hchecked⟩
  · exact ⟨_, hchecked⟩
  · exact hchecked.symm ▸ h

theorem andThen_completes {α β : Type} {x : Res α} (h : ∃ a, x = .next a) (f : α → β) :
    ∃ b, (andThen x fun a => .next (f a)) = .next b := by
  obtain ⟨a, rfl⟩ := h
  exact ⟨f a, rfl⟩

/-- On a well-formed buffer no instruction stops. -/
theorem exec_completes {s : State} (h : s.BufOk) (i : Instr) : ∃ t, exec i s = .next t := by
  have hloop (data : List Byte) : ∃ t, absorb s data = .next t := ⟨_, Holds.absorb_eq h.1 (BufOk.length_le h) data⟩
  have htail : ∃ t, tail s = .next t := ⟨_, Holds.tail_eq h.1 (BufOk.length_le h)⟩
  cases i with
  | init payload => exact checked_completes ⟨initBody payload s, rfl⟩ ..
  | update payload => exact checked_completes (andThen_completes (hloop payload) _) ..
  | final payload => exact checked_completes (andThen_completes htail _) ..
  | verify payload => exact checked_completes (andThen_completes htail _) ..
  | fadd _ _ | fcarry _ | fmul _ _ | freduce _ => exact ⟨_, rfl⟩

/-- An opcode selects a command or is unassigned. -/
theorem decodeOpcode_ok_or_unassigned (op : BitVec 8) (payload : List Byte) :
    (∃ i, decodeOpcode op payload = .ok i) ∨ op.toNat = 0 ∨ 5 ≤ op.toNat := by
  rcases opcode_assigned_or_not op with rfl | rfl | rfl | rfl | hop
  · exact .inl ⟨_, decodeOpcode_opInit payload⟩
  · exact .inl ⟨_, decodeOpcode_opUpdate payload⟩
  · exact .inl ⟨_, decodeOpcode_opFinal payload⟩
  · exact .inl ⟨_, decodeOpcode_opVerify payload⟩
  · exact .inr hop

/-- With no issue waiting, a whole input or none completes and takes the next event. -/
theorem step_of_whole_event {s : State} (hbuf : s.BufOk) (hissue : s.fuIssue = none)
    (hwhole : s.inbox.all HostEvent.whole = true) :
    ∃ t, step s = .next t ∧ t.fuIssue = none ∧ t.inbox = s.inbox.tail := by
  cases hinbox : s.inbox with
  | nil => exact ⟨s, step_of_waiting hissue hinbox, hissue, hinbox⟩
  | cons e later =>
    rw [hinbox, List.all_cons, Bool.and_eq_true] at hwhole
    cases e with
    | reset => exact ⟨_, step_of_reset hissue hinbox, rfl, rfl⟩
    | command ch payload =>
      have hlen : payload.length = (lenOf ch).toNat := beq_iff_eq.1 hwhole.1
      have hdecode := decode_command_of_whole hlen
      rcases decodeOpcode_ok_or_unassigned (opcodeOf ch) payload with ⟨i, hop⟩ | hop
      · obtain ⟨t, hexec⟩ := exec_completes (s := s.setInbox later) hbuf i
        obtain ⟨htInbox, htIssue, -⟩ := writeMap i _ t hexec
        exact ⟨t, (step_of_command hissue hinbox (hdecode.trans hop)).trans hexec, htIssue.trans hissue, htInbox⟩
      · have hillegal := hdecode.trans (decodeOpcode_of_unassigned hop payload)
        exact ⟨_, step_of_illegalOpcode hissue hinbox hillegal, hissue, rfl⟩

theorem exists_decode_of_fuIssueOk {f : FuIssue} (h : FuIssueOk f = true) : ∃ i, decode (.fieldUnit f) = .ok i := by
  rw [FuIssueOk] at h
  split at h
  case h_1 i hdecode => exact ⟨i, hdecode⟩
  case h_2 => cases h

/-- Settles O14: a waiting issue decodes and runs; else the next event is whole, and with the buffer well formed nothing
that it asks for can stop. -/
theorem wholeInputsComplete : Obligations.WholeInputsComplete := by
  intro s hinv hwhole
  obtain ⟨-, -, hbuf, -⟩ := id hinv
  obtain ⟨hevents, hissueOk⟩ := (Bool.and_eq_true ..).mp hwhole
  cases hissue : s.fuIssue with
  | some f =>
    rw [hissue, Option.all_some] at hissueOk
    obtain ⟨i, hdecode⟩ := exists_decode_of_fuIssueOk hissueOk
    obtain ⟨w, hstep⟩ := step_of_issue_eq hissue hdecode
    exact ⟨_, hstep, stepKeepsInv s _ hinv hstep, (Bool.and_eq_true ..).mpr ⟨hevents, rfl⟩, rfl, nofun⟩
  | none =>
    obtain ⟨t, hstep, htIssue, htInbox⟩ := step_of_whole_event hbuf hissue hevents
    refine ⟨t, hstep, stepKeepsInv s t hinv hstep, ?_, htIssue, fun _ => htInbox⟩
    have htEvents : s.inbox.tail.all HostEvent.whole = true :=
      List.all_eq_true.2 fun e he => List.all_eq_true.1 hevents e (List.mem_of_mem_tail he)
    rw [State.inputsWhole, htIssue, htInbox, htEvents]
    rfl

end Sys2Proof.Machine

/-! INIT and the clamp: what of the key and of the old state is left (rules R121, R126, R131). -/

namespace Sys2Proof.Machine

/-- The clamp cuts off key bytes 14 and 15 (rule R121). -/
theorem evalKey_eq {key : List Byte} (hkey : key.length = 32) : evalKey key = ofLE (key.take 14) := by
  have hlen : (key.take 14).length = 14 := by rw [List.length_take]; omega
  have hlt : ofLE (key.take 14) < 2 ^ 112 := by simpa only [hlen] using ofLE_lt (key.take 14)
  have hcut : key.take 16 = key.take 14 ++ (key.drop 14).take 2 := List.take_add (i := 14) (j := 2)
  rw [evalKey, hcut, ofLE_append, hlen, Config.clampBits_eq, Nat.add_mul_mod_self_left, Nat.mod_eq_of_lt hlt]

/-- KEYDERIVE sees a key through its two halves `r` and `s` only. -/
theorem initBody_congr {key key' : List Byte} (hr : evalKey key = evalKey key') (hmask : maskKey key = maskKey key')
    (s : State) : initBody key s = initBody key' s := by
  rw [initBody, initBody, keyDerive, keyDerive, hr, hmask]

/-- Settles O28: INIT writes every register of the engine but ERR, from the two key halves alone. -/
theorem initForgetsAndClamps : Obligations.InitForgetsAndClamps := by
  intro key key' s s' t t' hkey hkey' htake hdrop ht ht'
  rw [exec_init_eq_next s hkey, Host.Outcome.next.injEq] at ht
  rw [exec_init_eq_next s' hkey', Host.Outcome.next.injEq] at ht'
  have hr : evalKey key = evalKey key' := by rw [evalKey_eq hkey, evalKey_eq hkey', htake]
  have hmask : maskKey key = maskKey key' := by rw [maskKey, maskKey, hdrop]
  rw [← ht, ← ht', initBody_congr hr hmask]
  rfl

end Sys2Proof.Machine

/-! The four field-unit instructions, each the function of the unit put on the result lanes (rules R101 to R107,
R151). -/

namespace Sys2Proof.Machine

/-- Settles O29: lane addition on 128 bits, and `val` is linear where nothing is cut off. -/
theorem faddResult : Obligations.FaddResult := by
  intro a b s
  refine ⟨fieldAdd a b, rfl, BitVec.toNat_add .., BitVec.toNat_add .., fun h0 h1 => ?_⟩
  rw [Wide.val_eq_laneVal, fieldAdd_lanes h0 h1, Wide.val, Wide.val, laneVal, Wide.lanes, Wide.lanes]
  ring

/-- Settles O30: the lanes are those of the five steps; FCARRY's laws say what they are under the precondition. -/
theorem fcarryResult : Obligations.FcarryResult := by
  intro a s
  refine ⟨fieldCarry a, rfl, fieldCarry_lanes a, fun h0 h1 => ?bounded, fun h0 h1 => ?normalized⟩
  case bounded =>
    obtain ⟨hlow, hhigh⟩ := (Wide.isNarrow_iff _).1 (fieldCarry_isNarrow h0 h1)
    exact ⟨fieldCarry_lanes_exact h0 h1, hlow, hhigh, fieldCarry_val h0 h1⟩
  case normalized => exact fieldCarry_of_isNarrow ((Wide.isNarrow_iff a).2 ⟨h0, h1⟩)

/-- Settles O31: the result is FCARRY of the cross sums, delivered narrow whole. -/
theorem fmulResult : Obligations.FmulResult := by
  intro a b s
  refine ⟨fieldMul a b, rfl, fieldMul_val_mod a b, ?_⟩
  obtain ⟨h0, h1⟩ := crossSums_bounds a b
  rw [← Narrow.lanes_widen, fieldMul_widen, fieldCarry_lanes_exact (by omega) (by omega), crossSums_lanes]

/-- Settles O32: FREDUCE takes away P where the value reaches it. -/
theorem freduceResult : Obligations.FreduceResult :=
  fun a _ => ⟨fieldReduce a, rfl, fieldReduce_val a, fieldReduce_isCanonical a⟩

/-- Settles O34: four 58-bit limbs sum to less than 2^60, far inside FCARRY's precondition. -/
theorem fourProductSumLosesNothing : Obligations.FourProductSumLosesNothing := by
  intro p1 p2 p3 p4
  obtain ⟨h0, h1⟩ := fourSum_bounds p1 p2 p3 p4
  exact ⟨h0, h1, fieldCarry_narrow_widen (d := fourSum p1 p2 p3 p4) (by omega) (by omega),
    fieldCarry_fourSum_val_modEq p1 p2 p3 p4⟩

end Sys2Proof.Machine

/-! The buffer's accesses, and the padding bit (rules R50 to R54, R132). -/

namespace Sys2Proof.Machine

/-- Settles O35: the cells of a byte string take one more cell at the end, and are read back in order. -/
theorem bufferAppendsAndReads : Obligations.BufferAppendsAndReads := by
  refine fun s bs hs => ⟨fun b hl => ?append, fun a n h1 h14 hlen h56 => ?read⟩
  case append => exact ⟨_, Holds.memWrite_eq hs hl b, Holds.append hs hl b, rfl⟩
  case read => rw [memRead, Holds.memBytes_eq hs ⟨h1, h14⟩ hlen h56, andThen_next]

/-! ### Accesses out of range (U21) -/

/-- A length no block has. -/
theorem blockLength_check_iff {n : Nat} :
    (decide (n = 0) || decide (Config.blockBytes < n)) = true ↔ n = 0 ∨ 14 < n := by
  rw [Bool.or_eq_true, decide_eq_true_eq, decide_eq_true_eq, Config.blockBytes_eq]

theorem memBytes_of_length {n : Nat} (h : n = 0 ∨ 14 < n) (s : State) (a : Nat) :
    memBytes s a n = .refused .memRead := by
  rw [memBytes, if_pos (blockLength_check_iff.2 h)]

theorem padBlock_of_length {n : Nat} (h : n = 0 ∨ 14 < n) (s : State) (a : Nat) :
    padBlock s a n = .refused .blockLength := by
  rw [padBlock, if_pos (blockLength_check_iff.2 h)]

section
variable {s : State} {a n : Nat} (h1 : 1 ≤ n) (h14 : n ≤ 14)
include h1 h14

theorem memBytes_beyond_buflen (h : s.buflen.toNat < a + n) : memBytes s a n = .refused .memRead := by
  rw [memBytes, if_neg (mt blockLength_check_iff.1 (by omega)), if_pos h]

theorem memBytes_beyond_unit (h : a + n ≤ s.buflen.toNat) (h56 : 56 < a + n) :
    memBytes s a n = .fault .bufferAddress := by
  rw [memBytes, if_neg (mt blockLength_check_iff.1 (by omega)), if_neg (by omega), Config.unitBytes_eq, if_pos h56]

/-- A block of legal length stops where its read does. -/
theorem padBlock_eq_andThen :
    padBlock s a n = andThen (memBytes s a n) fun bs => .next (split (paddedValue bs)) := by
  rw [padBlock, if_neg (mt blockLength_check_iff.1 (by omega))]

end

theorem memWrite_out_of_range {s : State} {a : Nat} (h : a ≠ s.buflen.toNat ∨ 56 ≤ s.buflen.toNat) (b : Byte) :
    memWrite s a b = .refused .memWrite := by
  rw [memWrite, if_neg]
  rw [Bool.and_eq_true, decide_eq_true_eq, decide_eq_true_eq, Config.unitBytes_eq]
  omega

/-- Settles O36: the checks of `memBytes` in their order; PADBLOCK looks at its own length first. -/
theorem bufferStopsOutOfRange : Obligations.BufferStopsOutOfRange := by
  intro s a n b
  refine ⟨fun h => ?length, fun h1 h14 h => ?buflen, fun h1 h14 h h56 => ?address, fun h => memWrite_out_of_range h b⟩
  case length =>
    rw [memRead, memBytes_of_length h, padBlock_of_length h]
    exact ⟨rfl, rfl⟩
  case buflen =>
    rw [memRead, padBlock_eq_andThen h1 h14, memBytes_beyond_buflen h1 h14 h]
    exact ⟨rfl, rfl⟩
  case address =>
    rw [memRead, padBlock_eq_andThen h1 h14, memBytes_beyond_unit h1 h14 h h56]
    exact ⟨rfl, rfl⟩

end Sys2Proof.Machine

namespace Sys2Proof

/-! ### The padding bit (rule R132) -/

theorem paddedValue_nil : paddedValue [] = 1 := rfl

/-- The first byte is the lowest digit in base 256; what follows is padded on its own. -/
theorem paddedValue_cons (b : Byte) (bs : List Byte) : paddedValue (b :: bs) = b.toNat + 256 * paddedValue bs := by
  rw [paddedValue_eq_add, paddedValue_eq_add, ofLE_cons, List.length_cons, Nat.mul_succ, Nat.pow_add]
  omega

theorem paddedValue_pos (bs : List Byte) : 0 < paddedValue bs := by
  rw [paddedValue_eq_add]
  exact Nat.add_pos_right _ (Nat.two_pow_pos _)

/-- Settles O38: the base-256 digits of the padded value are the bytes, and the digit 1 after them ends the string. -/
theorem paddingIsInjective : Obligations.PaddingIsInjective := by
  intro a
  induction a with
  | nil =>
    intro b h
    cases b with
    | nil => rfl
    | cons y b =>
      have hpos := paddedValue_pos b
      rw [paddedValue_nil, paddedValue_cons] at h
      omega
  | cons x a ih =>
    intro b h
    have hx : x.toNat < 256 := x.isLt
    have hpos := paddedValue_pos a
    cases b with
    | nil =>
      rw [paddedValue_nil, paddedValue_cons] at h
      omega
    | cons y b =>
      have hy : y.toNat < 256 := y.isLt
      rw [paddedValue_cons, paddedValue_cons] at h
      have hbyte : x = y := BitVec.eq_of_toNat_eq (by omega)
      have hrest : a = b := ih b (by omega)
      rw [hbyte, hrest]

end Sys2Proof

/-! UPDATE and VERIFY register by register (rules R134, R154, R163, R164). -/

namespace Sys2Proof.Machine

/-- Settles O44: UPDATE's loop leaves what `State.streamed` says, and then the OK response is given. -/
theorem updateResult : Obligations.UpdateResult := by
  intro s bs data hp hs hl
  have hholds := streamed_holds s (bs ++ data)
  refine ⟨_, Holds.exec_update hs hl hp data, hholds, ?buflen, fun a => ?lookup, ?acc,
    fun hpow => streamed_acc_modEq hpow _, ?frame⟩
  case buflen => rw [respond_buflen, hholds.2, bufferedPart_length, List.length_append, hs.2]
  case lookup =>
    have hcell := lookup_cellsFrom 0 a (bufferedPart (bs ++ data))
    rwa [Nat.zero_add] at hcell
  case acc => rw [← List.length_append]; rfl
  case frame => rw [← hp]; rfl

/-- VERIFY of 16 bytes passes its checks in `Accumulating` (rules R87, R164). -/
theorem exec_verify_of_accumulating {s : State} (h : s.phase = .accumulating) {expected : List Byte}
    (hlen : expected.length = 16) : exec (.verify expected) s = verifyBody expected s := by
  have hp : phasePermits s.phase = true := (phasePermits_iff s.phase).2 h
  have hlenOk : (expected.length == lenVerify) = true := by rw [hlen]; rfl
  simp only [exec, execVerify, hp, hlenOk]
  rfl

/-- VERIFY where TAIL leaves `v` in `ACC`: the tag made from `v` is compared and not put out. -/
theorem exec_verify_of_tail {s : State} {v : Narrow} (hp : s.phase = .accumulating) {expected : List Byte}
    (hlen : expected.length = 16) (htail : tail s = .next (s.setAcc v).bufEmpty) :
    exec (.verify expected) s =
      .next (respond .ok [if toLE 16 ((v.val % Config.prime + s.mask.toNat) % 2 ^ 128) = expected then 1 else 0]
        ((s.setAcc v).bufEmpty.setPhase .finalized)) := by
  rw [exec_verify_of_accumulating hp hlen, verifyBody, htail, andThen_next,
    cteqIsEquality _ _ ((tagBytesOf_length _).trans hlen.symm), tagBytesOf_eq]
  rfl

/-- Settles O49: VERIFY's checks pass, TAIL folds what is buffered as for FINAL, and CTEQ is equality. -/
theorem verifyResult : Obligations.VerifyResult := by
  intro s bs expected hp hs hl hlen
  exact ⟨_, rfl, blocksFold_messageBlocks_val_modEq s.r s.acc bs, exec_verify_of_tail hp hlen (Holds.tail_eq hs hl)⟩

end Sys2Proof.Machine

/-! Whole messages: a message in progress under a key, VERIFY's answer and AUTH (rules R85, R138, R164 to R167). -/

namespace Sys2Proof.Machine

/-! ### A message in progress -/

/-- The engine holds the key `key` and has absorbed `msg` under it (rules R120, R138). -/
structure State.Accumulates (s : State) (key msg : List Byte) : Prop where
  phase : s.phase = .accumulating
  powers : s.PowersOk
  r : s.r.val = evalKey key
  mask : s.mask = BitVec.ofNat 128 (maskKey key)
  absorbed : s.Absorbed msg

theorem initBody_accumulates (key : List Byte) (s : State) : (initBody key s).Accumulates key [] where
  phase := rfl
  powers := keyDerive_powersOk key s
  r := keyDerive_r_val key s
  mask := rfl
  absorbed := initBody_absorbed key s

section
variable {s : State} {key msg : List Byte} (h : s.Accumulates key msg)
include h

/-- The loop of UPDATE extends the message and keeps the key. -/
theorem State.Accumulates.streamed (data : List Byte) :
    (s.streamed (bufferedPart msg ++ data)).Accumulates key (msg ++ data) where
  phase := h.phase
  powers := h.powers
  r := h.r
  mask := h.mask
  absorbed := streamed_absorbed h.powers h.absorbed data

/-- Taking an event writes no register of the engine. -/
theorem State.Accumulates.setInbox (later : List HostEvent) : (s.setInbox later).Accumulates key msg where
  phase := h.phase
  powers := h.powers
  r := h.r
  mask := h.mask
  absorbed := h.absorbed

/-- An error leaves the message in progress alone (rule R186). -/
theorem State.Accumulates.raiseError (status : Status) : (raiseError status s).Accumulates key msg where
  phase := h.phase
  powers := h.powers
  r := h.r
  mask := h.mask
  absorbed := h.absorbed

theorem State.Accumulates.respond (status : Status) (payload : List Byte) :
    (respond status payload s).Accumulates key msg where
  phase := h.phase
  powers := h.powers
  r := h.r
  mask := h.mask
  absorbed := h.absorbed

/-- TAIL completes the hash of the message, and `S` makes it the tag. -/
theorem State.Accumulates.tail_eq :
    ∃ v : Narrow, tail s = .next (s.setAcc v).bufEmpty ∧
      toLE 16 ((v.val % Config.prime + s.mask.toNat) % 2 ^ 128) = macTag key msg := by
  obtain ⟨v, htail, hv⟩ := h.absorbed.encodes.tail_eq
  refine ⟨v, htail, ?_⟩
  rw [hv, h.r, h.mask, ← keyDerive_mask key s, toLE_hash_add_mask]

theorem State.Accumulates.exec_final :
    ∃ v : Narrow, exec (.final []) s =
      .next (Machine.respond .ok (macTag key msg) ((s.setAcc v).bufEmpty.setPhase .finalized)) := by
  obtain ⟨v, htail, htag⟩ := h.tail_eq
  exact ⟨v, htag ▸ exec_final_of_tail h.phase htail⟩

theorem State.Accumulates.exec_verify {expected : List Byte} (hlen : expected.length = 16) :
    ∃ v : Narrow, exec (.verify expected) s =
      .next (Machine.respond .ok [if macTag key msg = expected then 1 else 0]
        ((s.setAcc v).bufEmpty.setPhase .finalized)) := by
  obtain ⟨v, htail, htag⟩ := h.tail_eq
  exact ⟨v, htag ▸ exec_verify_of_tail h.phase hlen htail⟩

end

/-- INIT and UPDATEs of any chunks leave their bytes absorbed under the key, with ERR as it was. -/
theorem execAll_init_updates_accumulates (s : State) {key : List Byte} (hkey : key.length = 32)
    (chunks : List (List Byte)) :
    ∃ t, execAll exec (.init key :: chunks.map Instr.update) s = .next t ∧ t.err = s.err ∧
      t.Accumulates key chunks.flatten := by
  obtain ⟨t, hrun, ht, habs⟩ := execAll_init_updates s hkey chunks
  have hstart := (initBody_accumulates key s).streamed chunks.flatten
  refine ⟨t, hrun, by rw [ht]; rfl, ?_, ?_, ?_, ?_, habs⟩
  · rw [ht]; exact hstart.phase
  · rw [ht]; exact hstart.powers
  · rw [ht]; exact hstart.r
  · rw [ht]; exact hstart.mask

/-- A message's commands and one instruction more. -/
theorem execAll_concat {is : List Instr} {i : Instr} {s t : State} (h : execAll exec is s = .next t) :
    execAll exec (is ++ [i]) s = exec i t := by
  rw [execAll_append, h, andThen_next, execAll_singleton]

/-- Settles O52: after INIT and the UPDATEs the message is absorbed, and VERIFY compares its tag. -/
theorem verifyOfMessage : Obligations.VerifyOfMessage := by
  intro s key expected chunks hkey hlen
  obtain ⟨t, hrun, herr, hacc⟩ := execAll_init_updates_accumulates s hkey chunks
  obtain ⟨v, hverify⟩ := hacc.exec_verify hlen
  refine ⟨_, (execAll_concat hrun).trans hverify, ?_⟩
  rw [respond_responses, List.getLast?_concat, ← herr]
  rfl

/-! ### AUTH (rules R85, R165) -/

theorem maxPayload_eq : maxPayload = 16777215 := rfl

theorem payloadsOf_flatten (fuel : Nat) (msg : List Byte) : (payloadsOf fuel msg).flatten = msg := by
  induction fuel generalizing msg with
  | zero => exact List.append_nil msg
  | succ fuel ih =>
    rw [payloadsOf]
    split
    · exact List.append_nil msg
    · rw [List.flatten_cons, ih, List.take_append_drop]

/-- One byte less is left with every cut, so as much fuel as bytes is enough. -/
theorem length_le_of_mem_payloadsOf {fuel : Nat} {msg payload : List Byte} (hfuel : msg.length ≤ fuel + maxPayload)
    (h : payload ∈ payloadsOf fuel msg) : payload.length ≤ maxPayload := by
  induction fuel generalizing msg with
  | zero =>
    obtain rfl := List.mem_singleton.1 h
    rwa [Nat.zero_add] at hfuel
  | succ fuel ih =>
    rw [payloadsOf] at h
    split at h
    case isTrue hshort => exact List.mem_singleton.1 h ▸ hshort
    case isFalse =>
      rcases List.mem_cons.1 h with rfl | hrest
      · exact List.length_take_le ..
      · refine ih ?_ hrest
        rw [maxPayload_eq] at hfuel ⊢
        rw [List.length_drop]
        omega

theorem authCommands_wellFormed {key : List Byte} (hkey : key.length = 32) (msg : List Byte) {i : Instr}
    (h : i ∈ authCommands key msg) : i.wellFormed = true := by
  rw [authCommands, List.mem_append, List.mem_cons, List.mem_map, List.mem_singleton] at h
  rcases h with (rfl | ⟨payload, hmem, rfl⟩) | rfl
  · rw [Instr.wellFormed, lenFits_iff, hkey]
    decide
  · have hlen := length_le_of_mem_payloadsOf (Nat.le_add_right ..) hmem
    rw [maxPayload_eq] at hlen
    rw [Instr.wellFormed, lenFits_iff]
    omega
  · rfl

/-- Settles O54: AUTH's UPDATEs carry the message in cuts that fit `LEN`, and FINAL gives its tag. -/
theorem authGivesTag : Obligations.AuthGivesTag := by
  intro s key msg hkey
  refine ⟨fun i h => authCommands_wellFormed hkey msg h, ?_⟩
  obtain ⟨t, hrun, herr, hacc⟩ := execAll_init_updates_accumulates s hkey (payloadsOf msg.length msg)
  rw [payloadsOf_flatten] at hacc
  obtain ⟨v, hfinal⟩ := hacc.exec_final
  refine ⟨_, (execAll_concat hrun).trans hfinal, rfl, herr, ?_⟩
  rw [respond_responses, List.getLast?_concat, ← herr, macTag, toLE_length]
  rfl

/-! ### The tag's corner cases (rule R167) -/

/-- A byte string is the bytes of its little-endian integer (rule R10). -/
theorem toLE_ofLE (bs : List Byte) : toLE bs.length (ofLE bs) = bs := by
  induction bs with
  | nil => rfl
  | cons b bs ih =>
    have hb : b.toNat < 256 := b.isLt
    have hlow : BitVec.ofNat 8 (b.toNat + 256 * ofLE bs) = b := by
      apply BitVec.eq_of_toNat_eq
      rw [BitVec.toNat_ofNat]
      omega
    have hhigh : (b.toNat + 256 * ofLE bs) / 256 = ofLE bs := by omega
    rw [List.length_cons, ofLE_cons, toLE, hlow, hhigh, ih]

/-- Under the evaluation key 0 every step of Horner's rule gives 0. -/
theorem horner_zero_zero (ms : List Nat) : horner 0 0 ms = 0 := by
  induction ms with
  | nil => rfl
  | cons m ms ih => rw [horner, Nat.mul_zero, Nat.zero_mod, ih]

/-- Settles O55: the empty message has hash 0, and so has every message under the key 0. -/
theorem tagCornerCases : Obligations.TagCornerCases := by
  refine ⟨fun key hkey => ?emptyMessage, fun msg => ?zeroKey⟩
  case emptyMessage =>
    have hlen : (key.drop 16).length = 16 := by rw [List.length_drop, hkey]
    have hlt : ofLE (key.drop 16) < 2 ^ 128 := by simpa only [hlen] using ofLE_lt (key.drop 16)
    have hhash : messageHash (evalKey key) [] = 0 := rfl
    have hbytes := toLE_ofLE (key.drop 16)
    rw [hlen] at hbytes
    rw [macTag, hhash, Nat.zero_add, maskKey, List.take_of_length_le hlen.le, Nat.mod_eq_of_lt hlt, hbytes]
  case zeroKey =>
    have hkey : evalKey (List.replicate 32 0) = 0 := rfl
    have hmask : maskKey (List.replicate 32 0) = 0 := rfl
    rw [macTag, hkey, hmask, messageHash, horner_zero_zero]
    rfl

end Sys2Proof.Machine

/-! An erroneous command in the middle of a message, by steps (rules R71, R186). -/

namespace Sys2Proof.Machine

theorem run_succ_of_step {s t : State} (h : step s = .next t) (k : Nat) :
    Host.Core.run Sys2Proof.core (k + 1) s = Host.Core.run Sys2Proof.core k t := by
  have hcore : Sys2Proof.core.step s = .next t := h
  simp only [Host.Core.run, hcore]

/-- A whole command with an unassigned opcode or an illegal length (rules R183, R184). -/
def BadCommand (ch : Header) (payload : List Byte) : Prop :=
  ch.toNat % 256 = 0 ∨ 5 ≤ ch.toNat % 256 ∨ (ch.toNat % 256 = 1 ∧ payload.length ≠ 32) ∨
    (ch.toNat % 256 = 3 ∧ payload.length ≠ 0) ∨ (ch.toNat % 256 = 4 ∧ payload.length ≠ 16)

section
variable {s : State} {later : List HostEvent} (hissue : s.fuIssue = none)
include hissue

/-- A bad command is taken, and its error is all that happens. -/
theorem step_of_badCommand {ch : Header} {payload : List Byte} (hinbox : s.inbox = .command ch payload :: later)
    (hwhole : payload.length = (lenOf ch).toNat) (hbad : BadCommand ch payload) :
    ∃ status, step s = .next (raiseError status (s.setInbox later)) := by
  obtain ⟨hinit, -, hfinal, hverify⟩ := opcode_cases (opcodeOf ch)
  have hdecode := decode_command_of_whole hwhole
  rw [BadCommand, ← opcodeOf_toNat] at hbad
  have hraise {i : Instr} (hi : decode (.command ch payload) = .ok i)
      (hexec : exec i (s.setInbox later) = .next (raiseError .usageLength (s.setInbox later))) :
      step s = .next (raiseError .usageLength (s.setInbox later)) := (step_of_command hissue hinbox hi).trans hexec
  rcases hbad with hop | hop | ⟨hop, hlen⟩ | ⟨hop, hlen⟩ | ⟨hop, hlen⟩
  · exact ⟨_, step_of_illegalOpcode hissue hinbox (hdecode.trans (decodeOpcode_of_unassigned (.inl hop) _))⟩
  · exact ⟨_, step_of_illegalOpcode hissue hinbox (hdecode.trans (decodeOpcode_of_unassigned (.inr hop) _))⟩
  · rw [hinit.2 hop, decodeOpcode_opInit] at hdecode
    exact ⟨_, hraise hdecode (checked_of_length_ne hlen ..)⟩
  · rw [hfinal.2 hop, decodeOpcode_opFinal] at hdecode
    exact ⟨_, hraise hdecode (checked_of_length_ne hlen ..)⟩
  · rw [hverify.2 hop, decodeOpcode_opVerify] at hdecode
    exact ⟨_, hraise hdecode (checked_of_length_ne hlen ..)⟩

/-- INIT of a key starts a message. -/
theorem step_of_init {key : List Byte} (hinbox : s.inbox = .command (commandHeader 0x01 32) key :: later)
    (hkey : key.length = 32) :
    ∃ t, step s = .next t ∧ t.Accumulates key [] ∧ t.fuIssue = none ∧ t.inbox = later :=
  ⟨_, (step_of_command hissue hinbox (decode_command_of_whole hkey)).trans (exec_init_eq_next _ hkey),
    initBody_accumulates .., hissue, rfl⟩

end

section
variable {s : State} {later : List HostEvent} {key msg : List Byte} (h : s.Accumulates key msg)
  (hissue : s.fuIssue = none)
include h hissue

/-- UPDATE extends the message in progress and keeps ERR. -/
theorem State.Accumulates.step_update {data : List Byte}
    (hinbox : s.inbox = .command (commandHeader 0x02 (BitVec.ofNat 24 data.length)) data :: later)
    (hlen : data.length < 2 ^ 24) :
    ∃ t, step s = .next t ∧ t.Accumulates key (msg ++ data) ∧ t.fuIssue = none ∧ t.inbox = later ∧ t.err = s.err := by
  have hdecode := decode_encodeCommand ((lenFits_iff data).2 hlen) opUpdate
  have hexec := Holds.exec_update (s := s.setInbox later) h.absorbed.1 (bufferedPart_length_le msg) h.phase data
  exact ⟨_, (step_of_command hissue hinbox hdecode).trans hexec,
    (State.Accumulates.streamed (h.setInbox later) data).respond .ok [], hissue, rfl, rfl⟩

/-- A bad command sets ERR and leaves the message in progress alone. -/
theorem State.Accumulates.step_bad {ch : Header} {payload : List Byte} (hinbox : s.inbox = .command ch payload :: later)
    (hwhole : payload.length = (lenOf ch).toNat) (hbad : BadCommand ch payload) :
    ∃ t, step s = .next t ∧ t.Accumulates key msg ∧ t.fuIssue = none ∧ t.inbox = later ∧ t.err = true := by
  obtain ⟨status, hstep⟩ := step_of_badCommand hissue hinbox hwhole hbad
  exact ⟨_, hstep, (h.setInbox later).raiseError status, hissue, rfl, rfl⟩

/-- FINAL answers with the tag of the message in progress. -/
theorem State.Accumulates.step_final (hinbox : s.inbox = .command (commandHeader 0x03 0) [] :: later) :
    ∃ t, step s = .next t ∧ t.inbox = later ∧ t.err = s.err ∧
      t.responses.getLast? = some ⟨responseHeader .ok .finalized s.err 16, macTag key msg⟩ := by
  obtain ⟨v, hexec⟩ := (h.setInbox later).exec_final
  refine ⟨_, (step_of_command hissue hinbox rfl).trans hexec, rfl, rfl, ?_⟩
  rw [respond_responses, List.getLast?_concat, macTag, toLE_length]
  rfl

end

/-- Settles O56: the error of the third step leaves the message of the first two in progress. -/
theorem badCommandDoesNoDamage : Obligations.BadCommandDoesNoDamage := by
  intro s key a b bad ch later hkey ha hb hwhole hbad hissue hinbox
  obtain ⟨t1, h1, hacc1, hissue1, hinbox1⟩ := step_of_init hissue hinbox hkey
  obtain ⟨t2, h2, hacc2, hissue2, hinbox2, -⟩ := hacc1.step_update hissue1 hinbox1 ha
  obtain ⟨t3, h3, hacc3, hissue3, hinbox3, herr3⟩ := hacc2.step_bad hissue2 hinbox2 hwhole hbad
  obtain ⟨t4, h4, hacc4, hissue4, hinbox4, herr4⟩ := hacc3.step_update hissue3 hinbox3 hb
  obtain ⟨t5, h5, hinbox5, herr5, hlast⟩ := hacc4.step_final hissue4 hinbox4
  have herr : t4.err = true := herr4.trans herr3
  refine ⟨t5, ?run, hinbox5, herr5.trans herr, ?last⟩
  case run =>
    rw [run_succ_of_step h1, run_succ_of_step h2, run_succ_of_step h3, run_succ_of_step h4, run_succ_of_step h5]
    rfl
  case last =>
    rw [hlast, herr]
    rfl

end Sys2Proof.Machine

/-! A command as its series of operations: what the series does, and how many operations it has (rules R216, R217). -/

namespace Sys2Proof.Machine

/-! ### What a series does (rule R216) -/

/-- The error series raises what the failing check raises (rule R87). -/
theorem runSeries_checkedSeries (p : List Byte) (lenOk phaseOk : Bool) (ops : List SeqOp) (s : State) :
    runSeries p (checkedSeries lenOk phaseOk ops) s = checked lenOk phaseOk s (runSeries p ops s) := by
  rw [checkedSeries, checked]
  cases firstFailure lenOk phaseOk with
  | some status => rfl
  | none => rfl

theorem runSeries_initSeries (p : List Byte) (s : State) : runSeries p initSeries s = .next (initBody p s) := by
  simp only [runSeries, initSeries, performAll, perform, writePlace, readPlace, andThen_next, Narrow.narrow_widen_eq]
  rfl

/-- An append raises `BUFLEN` by one: it is refused before the counter could wrap (rule R54). -/
theorem memWrite_buflen {s t : State} {a : Nat} {b : Byte} (h : memWrite s a b = .next t) :
    t.buflen.toNat = s.buflen.toNat + 1 := by
  obtain ⟨hlt, ha, rfl⟩ := memWrite_eq_next.1 h
  have hone : (1 : BitVec 6).toNat = 1 := rfl
  rw [State.setBuf_buflen, BitVec.toNat_add, hone]
  omega

/-- UPDATE's series from payload byte `index` on does what the loop does on the bytes from there on. -/
theorem strip_updateSeries (p data : List Byte) {index : Nat} (hdata : p.drop index = data) (s : State) (x : Scratch) :
    strip (performAll p (updateSeries data.length index s.buflen.toNat) s x) =
      andThen (absorb s data) fun t => .next (respond .ok [] t) := by
  induction data generalizing index s x with
  | nil => rfl
  | cons b data ih =>
    have hbyte : p.getD index 0 = b := by
      rw [List.getD_eq_getElem?_getD, ← List.head?_drop, hdata]
      rfl
    have hnext : p.drop (index + 1) = data := by rw [← List.drop_drop, hdata]; rfl
    rw [List.length_cons, updateSeries, absorb, absorbByte, andThen_assoc, andThen_assoc]
    split
    case isTrue hfull =>
      rw [strip_bufWrite, hbyte]
      refine andThen_congr _ _ _ fun s1 hwrite => ?_
      have hunit : s1.buflen.toNat = Config.unitBytes := (memWrite_buflen hwrite).trans hfull
      rw [if_pos hunit, andThen_assoc]
      exact strip_batchSeries p _ s1 x (fun u => andThen (absorb u data) fun t => .next (respond .ok [] t))
        fun t y => ih hnext t.bufEmpty y
    case isFalse hpart =>
      rw [strip_bufWrite, hbyte]
      refine andThen_congr _ _ _ fun s1 hwrite => ?_
      have hlen := memWrite_buflen hwrite
      have hunit : s1.buflen.toNat ≠ Config.unitBytes := by rw [hlen]; exact hpart
      rw [if_neg hunit, andThen_next, ← hlen]
      exact ih hnext s1 x

theorem runSeries_updateSeries (p : List Byte) (s : State) :
    runSeries p (updateSeries p.length 0 s.buflen.toNat) s =
      andThen (absorb s p) fun t => .next (respond .ok [] t) :=
  strip_updateSeries p p rfl s Scratch.empty

theorem runSeries_finalSeries (p : List Byte) (s : State) :
    runSeries p (finalSeries s.buflen.toNat) s = finalBody s := by
  refine strip_tagSeries p _ s Scratch.empty _ fun t y htag => ?_
  rw [← htag]
  rfl

theorem runSeries_verifySeries (p : List Byte) (s : State) :
    runSeries p (verifySeries s.buflen.toNat) s = verifyBody p s := by
  refine strip_tagSeries p _ s Scratch.empty _ fun t y htag => ?_
  rw [← htag]
  rfl

theorem commandSeries_of_unassigned {op : BitVec 8} (h : op.toNat = 0 ∨ 5 ≤ op.toNat) (len : Nat) (phase : Phase)
    (buflen : Nat) : commandSeries op len phase buflen = [.raise .illegalOpcode] := by
  obtain ⟨hinit, hupdate, hfinal, hverify⟩ := opcode_cases op
  rw [commandSeries, if_neg (mt hinit.1 (by omega)), if_neg (mt hupdate.1 (by omega)),
    if_neg (mt hfinal.1 (by omega)), if_neg (mt hverify.1 (by omega))]

/-- The series of a command, from the state that executes it, does what `exec` does. -/
theorem exec_eq_runSeries {op : BitVec 8} {p : List Byte} {i : Instr} (h : decodeOpcode op p = .ok i) (s : State) :
    exec i s = runSeries p (commandSeries op p.length s.phase s.buflen.toNat) s := by
  rcases decodeOpcode_eq_ok h with ⟨rfl, rfl⟩ | ⟨rfl, rfl⟩ | ⟨rfl, rfl⟩ | ⟨rfl, rfl⟩
  · calc
      exec (.init p) s = checked (p.length == lenInit) true s (runSeries p initSeries s) := by
        rw [runSeries_initSeries]; rfl
      _ = _ := (runSeries_checkedSeries ..).symm
  · calc
      exec (.update p) s =
          checked true (phasePermits s.phase) s (runSeries p (updateSeries p.length 0 s.buflen.toNat) s) := by
        rw [runSeries_updateSeries]; rfl
      _ = _ := (runSeries_checkedSeries ..).symm
  · calc
      exec (.final p) s =
          checked (p.length == lenFinal) (phasePermits s.phase) s (runSeries p (finalSeries s.buflen.toNat) s) := by
        rw [runSeries_finalSeries]; rfl
      _ = _ := (runSeries_checkedSeries ..).symm
  · calc
      exec (.verify p) s =
          checked (p.length == lenVerify) (phasePermits s.phase) s (runSeries p (verifySeries s.buflen.toNat) s) := by
        rw [runSeries_verifySeries]; rfl
      _ = _ := (runSeries_checkedSeries ..).symm

/-- Settles O57: the step takes the command, which decodes or has an unassigned opcode, and either way does what the
series does. -/
theorem commandIsItsSeries : Obligations.CommandIsItsSeries := by
  intro s ch payload later hissue hinbox hwhole
  have hdecode := decode_command_of_whole hwhole
  rcases decodeOpcode_ok_or_unassigned (opcodeOf ch) payload with ⟨i, hop⟩ | hop
  · rw [step_of_command hissue hinbox (hdecode.trans hop)]
    exact exec_eq_runSeries hop (s.setInbox later)
  · rw [step_of_illegalOpcode hissue hinbox (hdecode.trans (decodeOpcode_of_unassigned hop payload)),
      commandSeries_of_unassigned hop]
    rfl

/-! ### Operation counts (rule R217) -/

section
variable (f : SeqOp → Bool)

/-- Among the operations of UPDATE's series are one buffer write per byte and one batch per unit completed. -/
theorem countP_updateSeries {writes : Bool} (hwrite : ∀ address index, f (.bufWrite address index) = writes)
    (hrespond : f .respondPlain = false) (len index : Nat) {n : Nat} (hn : n ≤ 55) :
    (updateSeries len index n).countP f = writes.toNat * len + batchSeries.countP f * ((n + len) / 56) := by
  have hone (address i : Nat) (ops : List SeqOp) :
      (SeqOp.bufWrite address i :: ops).countP f = ops.countP f + writes.toNat := by
    rw [List.countP_cons, hwrite]
    cases writes <;> rfl
  induction len generalizing index n with
  | zero =>
    have hnone : (n + 0) / 56 = 0 := by omega
    rw [updateSeries, List.countP_singleton, hrespond, hnone]
    rfl
  | succ len ih =>
    rw [updateSeries]
    split
    case isTrue hfull =>
      have hunits : (n + (len + 1)) / 56 = (0 + len) / 56 + 1 := by omega
      rw [hone, List.countP_append, ih (index + 1) (Nat.zero_le 55), hunits]
      ring
    case isFalse hpart =>
      have hunits : n + (len + 1) = n + 1 + len := by omega
      rw [hone, ih (index + 1) (by omega), hunits]
      ring

section
variable {perBlock : Nat} (hblock : ∀ address length, (blockSeries address length).countP f = perBlock)
include hblock

theorem countP_wholeSeries (j count : Nat) : (wholeSeries j count).countP f = perBlock * count := by
  induction count generalizing j with
  | zero => rfl
  | succ count ih => rw [wholeSeries, List.countP_append, hblock, ih, Nat.mul_succ, Nat.add_comm]

/-- TAGGEN folds `ceil(n / 14)` blocks, then reduces. -/
theorem countP_tagSeries (n : Nat) :
    (tagSeries n).countP f =
      perBlock * ((n + 13) / 14) + [SeqOp.bufEmpty, .freduce .acc .lane1, .addMask .lane1].countP f := by
  rw [tagSeries, List.countP_append, List.countP_append, countP_wholeSeries f hblock]
  split
  case isTrue hnone =>
    have hcount : (n + 13) / 14 = n / 14 := by omega
    rw [hcount]
    rfl
  case isFalse hsome =>
    have hcount : (n + 13) / 14 = n / 14 + 1 := by omega
    rw [hblock, hcount, Nat.mul_succ]

/-- What follows TAGGEN in FINAL and VERIFY is no field-unit operation and no block read. -/
theorem countP_closingSeries (hfinal : [SeqOp.setPhase .finalized, .respondTag].countP f = 0)
    (hverify : [SeqOp.compare, .setPhase .finalized, .respondResult].countP f = 0) {n : Nat} {ops : List SeqOp}
    (hops : ops = finalSeries n ∨ ops = verifySeries n) :
    ops.countP f =
      perBlock * ((n + 13) / 14) + [SeqOp.bufEmpty, .freduce .acc .lane1, .addMask .lane1].countP f := by
  rcases hops with rfl | rfl
  · rw [finalSeries, List.countP_append, hfinal, countP_tagSeries f hblock, Nat.add_zero]
  · rw [verifySeries, List.countP_append, hverify, countP_tagSeries f hblock, Nat.add_zero]

end

end

/-- Settles O58: a series is made of parts with fixed counts, as many as there are units or blocks. -/
theorem operationCounts : Obligations.OperationCounts := by
  refine ⟨rfl, fun len index n hn => ?update, fun n ops _ hops => ?closing, fun n _ => ?compare⟩
  case update =>
    rw [countP_updateSeries SeqOp.isBufWrite (fun _ _ => rfl) rfl len index hn,
      countP_updateSeries SeqOp.isFmul (fun _ _ => rfl) rfl len index hn,
      countP_updateSeries SeqOp.isFadd (fun _ _ => rfl) rfl len index hn,
      countP_updateSeries SeqOp.isFcarry (fun _ _ => rfl) rfl len index hn]
    have hwrites : batchSeries.countP SeqOp.isBufWrite = 0 := rfl
    have hfmul : batchSeries.countP SeqOp.isFmul = 4 := rfl
    have hfadd : batchSeries.countP SeqOp.isFadd = 4 := rfl
    have hfcarry : batchSeries.countP SeqOp.isFcarry = 2 := rfl
    rw [hwrites, hfmul, hfadd, hfcarry, Bool.toNat_true, Bool.toNat_false]
    omega
  case closing =>
    rw [countP_closingSeries SeqOp.isPadBlock (perBlock := 1) (fun _ _ => rfl) rfl rfl hops,
      countP_closingSeries SeqOp.isFadd (perBlock := 1) (fun _ _ => rfl) rfl rfl hops,
      countP_closingSeries SeqOp.isFcarry (perBlock := 1) (fun _ _ => rfl) rfl rfl hops,
      countP_closingSeries SeqOp.isFmul (perBlock := 1) (fun _ _ => rfl) rfl rfl hops,
      countP_closingSeries SeqOp.isFreduce (perBlock := 0) (fun _ _ => rfl) rfl rfl hops]
    rw [Nat.one_mul, Nat.zero_mul]
    exact ⟨rfl, rfl, rfl, rfl, rfl⟩
  case compare =>
    rw [verifySeries, finalSeries, List.countP_append, List.countP_append,
      countP_tagSeries SeqOp.isCompare (perBlock := 0) (fun _ _ => rfl), Nat.zero_mul]
    exact ⟨rfl, rfl⟩

end Sys2Proof.Machine
